-- ==== Sys2Proof/Word.lean ====
section
/-! DEFINITION. The word types of the machine (spec/00_scope.md R7, R9, R15; spec/30_encoding.md R74, R75). -/

namespace Sys2Proof

/-- A byte of memory or of a general register: 8 bits, unsigned (10_state.md R20, R30). -/
abbrev Byte := BitVec 8

/-- A 16-bit value: the instruction word, `I`, `pc`, a stack slot (10_state.md R23, R24, R26). -/
abbrev Word := BitVec 16

/-- A 4-bit field of the instruction word (00_scope.md R15). -/
abbrev Nibble := BitVec 4

/-- The 12-bit address operand NNN (30_encoding.md R75). -/
abbrev Addr := BitVec 12

/-- The index of a general register, 0..15 (30_encoding.md R79). -/
abbrev Reg := Fin 16

/-- A key of the keypad, 0x0..0xF (10_state.md R33). -/
abbrev Key := Fin 16

end Sys2Proof
end

