-- ==== Sys2Proof/Config.lean ====
section
/-! DEFINITION. The sizes the spec fixes (00_scope.md R7), the parameters it leaves open (00_scope.md R8) and the one
free value of the model (10_state.md R34). The reference values of the parameters are in Machine/Reference.lean. -/

namespace Sys2Proof

/-- MEM_SIZE (00_scope.md R7). -/
abbrev Config.memSize : Nat := 4096

/-- PROG_BASE: where a program image is loaded and where execution starts (00_scope.md R7, 20_memory.md R57). -/
abbrev Config.progBase : Nat := 512

/-- PROG_MAX: the longest program image (00_scope.md R7). -/
abbrev Config.progMax : Nat := 3584

/-- The glyph table: 16 glyphs of 5 bytes, the glyph of digit d at 5*d (00_scope.md R7, 20_memory.md R56). -/
abbrev Glyphs := Vector Byte 80

/-- SHIFT_SOURCE: which operand SHR and SHL shift (41_alu.md R142, D7). -/
inductive ShiftSource
  | x
  | y
  deriving DecidableEq, Repr

/-- FLAG_ORDER: which of flag and destination is written first (41_alu.md R132, D8). -/
inductive FlagOrder
  | flagThenDest
  | destThenFlag
  deriving DecidableEq, Repr

/-- The configuration of one machine: the parameters of 00_scope.md R8, fixed while the machine exists. -/
structure Config where
  /-- FB_W, the number of pixel columns (D15). -/
  fbW : Nat
  /-- FB_H, the number of pixel rows (D15). -/
  fbH : Nat
  /-- GLYPHS, the contents of addresses 0..79 after initialization (D16). -/
  glyphs : Glyphs
  /-- SYS_JUMP: whether 0NNN is the legacy jump (D6). -/
  sysJump : Bool
  /-- SHIFT_SOURCE (D7). -/
  shiftSource : ShiftSource
  /-- FLAG_ORDER (D8). -/
  flagOrder : FlagOrder
  deriving DecidableEq, Repr

/-- FB_W and FB_H are positive naturals (00_scope.md R8). -/
abbrev Config.wf (c : Config) : Prop := 0 < c.fbW ∧ 0 < c.fbH

/-- FREE VALUE: the byte the random source yields at its n-th unsupplied draw. It has no body: any byte, no distribution
and no relation between draws (10_state.md R34, D17; notes/assumptions/4.md). -/
opaque Config.randomByte : Nat → Byte

end Sys2Proof
end

