-- ==== Sys2Proof/Syntax.lean ====
section
/-! DEFINITION. The 35 instructions of the opcode map (30_encoding.md R90), one constructor per row of
spec/opcode_table.json, in its order. Operands are named as in 30_encoding.md R75. -/

namespace Sys2Proof

inductive Instr
  /-- CLS, `00E0`: clear the framebuffer. -/
  | cls
  /-- RET, `00EE`: return. -/
  | ret
  /-- SYS, `0NNN`: the legacy jump. -/
  | sys (NNN : Addr)
  /-- JP, `1NNN`: jump. -/
  | jp (NNN : Addr)
  /-- CALL, `2NNN`: call. -/
  | call (NNN : Addr)
  /-- SE_IMM, `3XKK`: skip if x[X] = KK. -/
  | seImm (X : Reg) (KK : Byte)
  /-- SNE_IMM, `4XKK`: skip if x[X] ≠ KK. -/
  | sneImm (X : Reg) (KK : Byte)
  /-- SE_REG, `5XY0`: skip if x[X] = x[Y]. -/
  | seReg (X Y : Reg)
  /-- LD_IMM, `6XKK`: load immediate. -/
  | ldImm (X : Reg) (KK : Byte)
  /-- ADD_IMM, `7XKK`: add immediate. -/
  | addImm (X : Reg) (KK : Byte)
  /-- LD_REG, `8XY0`: copy. -/
  | ldReg (X Y : Reg)
  /-- OR, `8XY1`. -/
  | bitOr (X Y : Reg)
  /-- AND, `8XY2`. -/
  | bitAnd (X Y : Reg)
  /-- XOR, `8XY3`. -/
  | bitXor (X Y : Reg)
  /-- ADD_REG, `8XY4`: add registers, flag = carry. -/
  | addReg (X Y : Reg)
  /-- SUB, `8XY5`: x[X] - x[Y], flag = no borrow. -/
  | sub (X Y : Reg)
  /-- SHR, `8XY6`: shift right, flag = the bit shifted out. -/
  | shr (X Y : Reg)
  /-- SUBN, `8XY7`: x[Y] - x[X], flag = no borrow. -/
  | subn (X Y : Reg)
  /-- SHL, `8XYE`: shift left, flag = the bit shifted out. -/
  | shl (X Y : Reg)
  /-- SNE_REG, `9XY0`: skip if x[X] ≠ x[Y]. -/
  | sneReg (X Y : Reg)
  /-- LD_I, `ANNN`: set the index register. -/
  | ldI (NNN : Addr)
  /-- JP_V0, `BNNN`: jump to NNN + x[0]. -/
  | jpV0 (NNN : Addr)
  /-- RND, `CXKK`: random byte and mask. -/
  | rnd (X : Reg) (KK : Byte)
  /-- DRW, `DXYN`: draw a sprite of N rows. -/
  | drw (X Y : Reg) (N : Fin 16)
  /-- SKP, `EX9E`: skip if the key is down. -/
  | skp (X : Reg)
  /-- SKNP, `EXA1`: skip if the key is up. -/
  | sknp (X : Reg)
  /-- LD_VX_DT, `FX07`: read the delay timer. -/
  | ldVxDt (X : Reg)
  /-- LD_VX_K, `FX0A`: await a key. -/
  | ldVxK (X : Reg)
  /-- LD_DT_VX, `FX15`: write the delay timer. -/
  | ldDtVx (X : Reg)
  /-- LD_ST_VX, `FX18`: write the sound timer. -/
  | ldStVx (X : Reg)
  /-- ADD_I, `FX1E`: add to the index register. -/
  | addI (X : Reg)
  /-- LD_F, `FX29`: set the index register to a glyph. -/
  | ldF (X : Reg)
  /-- LD_B, `FX33`: store BCD. -/
  | ldB (X : Reg)
  /-- LD_MEM_VX, `FX55`: register dump. -/
  | ldMemVx (X : Reg)
  /-- LD_VX_MEM, `FX65`: register load. -/
  | ldVxMem (X : Reg)
  deriving DecidableEq, Repr

end Sys2Proof
end

