-- ==== Sys2Proof/WellFormed.lean ====
section
/-! DEFINITION. Which terms of Instr are instructions of a machine. The operand ranges (30_encoding.md R75) are in the
types of the constructors; what remains is the SYS row's own conditions (30_encoding.md R93). -/

namespace Sys2Proof

/-- SYS is an instruction only when SYS_JUMP is true, and never with NNN = 0x0E0 or 0x0EE: those words are CLS and RET
(30_encoding.md R93, 40_control_flow.md R101). Every other term is well formed. -/
def Instr.wf (sysJump : Bool) : Instr → Bool
  | .sys NNN => sysJump && NNN != 0x0E0#12 && NNN != 0x0EE#12
  | .cls | .ret | .jp _ | .call _ | .seImm _ _ | .sneImm _ _ | .seReg _ _ | .ldImm _ _ | .addImm _ _ => true
  | .ldReg _ _ | .bitOr _ _ | .bitAnd _ _ | .bitXor _ _ | .addReg _ _ | .sub _ _ | .shr _ _ | .subn _ _ => true
  | .shl _ _ | .sneReg _ _ | .ldI _ | .jpV0 _ | .rnd _ _ | .drw _ _ _ | .skp _ | .sknp _ | .ldVxDt _ => true
  | .ldVxK _ | .ldDtVx _ | .ldStVx _ | .addI _ | .ldF _ | .ldB _ | .ldMemVx _ | .ldVxMem _ => true

end Sys2Proof
end

