-- ==== Sys2Proof/Decode.lean ====
section
/-! DEFINITION. The 4-nibble splitter, operand assembly, the decoder (30_encoding.md R73 to R94) and the encoder written
from the same opcode map (30_encoding.md R81, R90). -/

namespace Sys2Proof

/-! ### The 4-nibble split (30_encoding.md R74) -/

/-- o1 = ins[15:12]. -/
def nibble1 (w : Word) : Nibble := w.extractLsb' 12 4

/-- o2 = ins[11:8]. -/
def nibble2 (w : Word) : Nibble := w.extractLsb' 8 4

/-- o3 = ins[7:4]. -/
def nibble3 (w : Word) : Nibble := w.extractLsb' 4 4

/-- o4 = ins[3:0]. -/
def nibble4 (w : Word) : Nibble := w.extractLsb' 0 4

/-- The instruction word with the nibbles o1 o2 o3 o4, o1 in the high bits (30_encoding.md R74). -/
def wordOfNibbles (o1 o2 o3 o4 : Nibble) : Word :=
  BitVec.ofNat 16 (o1.toNat * 4096 + o2.toNat * 256 + o3.toNat * 16 + o4.toNat)

/-! ### Operand assembly, the AddressDecoder (30_encoding.md R75 to R79) -/

/-- registerIndex(n) = n (R79). -/
def registerIndex (n : Nibble) : Reg := ⟨n.toNat, n.isLt⟩

/-- N = o4, the sprite row count (R75). -/
def rowCount (n : Nibble) : Fin 16 := ⟨n.toNat, n.isLt⟩

/-- immediate(n1, n2) = n1 * 16 + n2 (R77). -/
def immediate (n1 n2 : Nibble) : Byte := BitVec.ofNat 8 (n1.toNat * 16 + n2.toNat)

/-- absoluteAddress(n1, n2, n3) = n1 * 256 + n2 * 16 + n3 (R76). -/
def absoluteAddress (n1 n2 n3 : Nibble) : Addr := BitVec.ofNat 12 (n1.toNat * 256 + n2.toNat * 16 + n3.toNat)

/-! ### Dispatch (30_encoding.md R83, R89, R90, R93) -/

/-- Why the decoder gives no instruction. -/
inductive Reject
  /-- The word selects no row of the opcode map under the configuration (30_encoding.md R83, R89). -/
  | unmatched
  /-- Fewer than the two bytes of an instruction are there (30_encoding.md R80). -/
  | truncated
  deriving DecidableEq, Repr

/-- The o1 = 0 group: 00E0 and 00EE first, then SYS if SYS_JUMP (R93). -/
def decodeGroup0 (sysJump : Bool) (o2 o3 o4 : Nibble) : Except Reject Instr :=
  if o2 = 0x0#4 ∧ o3 = 0xE#4 ∧ o4 = 0x0#4 then .ok .cls
  else if o2 = 0x0#4 ∧ o3 = 0xE#4 ∧ o4 = 0xE#4 then .ok .ret
  else if sysJump then .ok (.sys (absoluteAddress o2 o3 o4))
  else .error .unmatched

/-- The o1 = 8 group, sub-dispatched on o4 (R83, R145). -/
def decodeGroup8 (X Y : Reg) (o4 : Nibble) : Except Reject Instr :=
  match o4.toNat with
  | 0x0 => .ok (.ldReg X Y)
  | 0x1 => .ok (.bitOr X Y)
  | 0x2 => .ok (.bitAnd X Y)
  | 0x3 => .ok (.bitXor X Y)
  | 0x4 => .ok (.addReg X Y)
  | 0x5 => .ok (.sub X Y)
  | 0x6 => .ok (.shr X Y)
  | 0x7 => .ok (.subn X Y)
  | 0xE => .ok (.shl X Y)
  | _ => .error .unmatched

/-- The o1 = E group, sub-dispatched on o3 ++ o4 (R83). -/
def decodeGroupE (X : Reg) (kk : Byte) : Except Reject Instr :=
  match kk.toNat with
  | 0x9E => .ok (.skp X)
  | 0xA1 => .ok (.sknp X)
  | _ => .error .unmatched

/-- The o1 = F group, sub-dispatched on o3 ++ o4 (R83). -/
def decodeGroupF (X : Reg) (kk : Byte) : Except Reject Instr :=
  match kk.toNat with
  | 0x07 => .ok (.ldVxDt X)
  | 0x0A => .ok (.ldVxK X)
  | 0x15 => .ok (.ldDtVx X)
  | 0x18 => .ok (.ldStVx X)
  | 0x1E => .ok (.addI X)
  | 0x29 => .ok (.ldF X)
  | 0x33 => .ok (.ldB X)
  | 0x55 => .ok (.ldMemVx X)
  | 0x65 => .ok (.ldVxMem X)
  | _ => .error .unmatched

/-- decode(o1, o2, o3, o4): the row of the opcode map that the nibbles match, or unmatched (R83, R90). -/
def decodeNibbles (sysJump : Bool) (o1 o2 o3 o4 : Nibble) : Except Reject Instr :=
  match o1.toNat with
  | 0x0 => decodeGroup0 sysJump o2 o3 o4
  | 0x1 => .ok (.jp (absoluteAddress o2 o3 o4))
  | 0x2 => .ok (.call (absoluteAddress o2 o3 o4))
  | 0x3 => .ok (.seImm (registerIndex o2) (immediate o3 o4))
  | 0x4 => .ok (.sneImm (registerIndex o2) (immediate o3 o4))
  | 0x5 => if o4 = 0x0#4 then .ok (.seReg (registerIndex o2) (registerIndex o3)) else .error .unmatched
  | 0x6 => .ok (.ldImm (registerIndex o2) (immediate o3 o4))
  | 0x7 => .ok (.addImm (registerIndex o2) (immediate o3 o4))
  | 0x8 => decodeGroup8 (registerIndex o2) (registerIndex o3) o4
  | 0x9 => if o4 = 0x0#4 then .ok (.sneReg (registerIndex o2) (registerIndex o3)) else .error .unmatched
  | 0xA => .ok (.ldI (absoluteAddress o2 o3 o4))
  | 0xB => .ok (.jpV0 (absoluteAddress o2 o3 o4))
  | 0xC => .ok (.rnd (registerIndex o2) (immediate o3 o4))
  | 0xD => .ok (.drw (registerIndex o2) (registerIndex o3) (rowCount o4))
  | 0xE => decodeGroupE (registerIndex o2) (immediate o3 o4)
  | _ => decodeGroupF (registerIndex o2) (immediate o3 o4)

/-- The decoder on one instruction word: total on all 65536 words under every configuration (R83, R94). -/
def decode (sysJump : Bool) (w : Word) : Except Reject Instr :=
  decodeNibbles sysJump (nibble1 w) (nibble2 w) (nibble3 w) (nibble4 w)

/-- The instruction word of two bytes, the first byte the high one (30_encoding.md R73, 20_memory.md R51). -/
def wordOfBytes (hi lo : Byte) : Word := BitVec.ofNat 16 (hi.toNat * 256 + lo.toNat)

/-- The high byte of a word, stored at the lower address (20_memory.md R51). -/
def highByte (w : Word) : Byte := w.extractLsb' 8 8

/-- The low byte of a word, stored at the higher address (20_memory.md R51). -/
def lowByte (w : Word) : Byte := w.extractLsb' 0 8

/-- The decoder on any bytes: every instruction is exactly two bytes (R80); the rest of the list is handed back. -/
def decodeBytes (sysJump : Bool) : List Byte → Except Reject (Instr × List Byte)
  | hi :: lo :: rest =>
    match decode sysJump (wordOfBytes hi lo) with
    | .ok i => .ok (i, rest)
    | .error r => .error r
  | [_] => .error .truncated
  | [] => .error .truncated

/-! ### The encoder (30_encoding.md R81, R90) -/

/-- The nibble of a register index or row count. -/
def fieldNibble (n : Fin 16) : Nibble := BitVec.ofNat 4 n.val

/-- Format NNN: oooo aaaa aaaa aaaa (R81). -/
def encodeNNN (o1 : Nibble) (NNN : Addr) : Word :=
  wordOfNibbles o1 (NNN.extractLsb' 8 4) (NNN.extractLsb' 4 4) (NNN.extractLsb' 0 4)

/-- Format XKK: oooo xxxx kkkk kkkk, and format XFF with a fixed low byte (R81). -/
def encodeXKK (o1 : Nibble) (X : Reg) (KK : Byte) : Word :=
  wordOfNibbles o1 (fieldNibble X) (KK.extractLsb' 4 4) (KK.extractLsb' 0 4)

/-- Format XYF: oooo xxxx yyyy ffff, and format XYN with N in the low nibble (R81). -/
def encodeXYF (o1 : Nibble) (X Y : Reg) (f : Nibble) : Word :=
  wordOfNibbles o1 (fieldNibble X) (fieldNibble Y) f

/-- The word of an instruction, row by row of the opcode map (R90). -/
def encode : Instr → Word
  | .cls => 0x00E0#16
  | .ret => 0x00EE#16
  | .sys NNN => encodeNNN 0x0#4 NNN
  | .jp NNN => encodeNNN 0x1#4 NNN
  | .call NNN => encodeNNN 0x2#4 NNN
  | .seImm X KK => encodeXKK 0x3#4 X KK
  | .sneImm X KK => encodeXKK 0x4#4 X KK
  | .seReg X Y => encodeXYF 0x5#4 X Y 0x0#4
  | .ldImm X KK => encodeXKK 0x6#4 X KK
  | .addImm X KK => encodeXKK 0x7#4 X KK
  | .ldReg X Y => encodeXYF 0x8#4 X Y 0x0#4
  | .bitOr X Y => encodeXYF 0x8#4 X Y 0x1#4
  | .bitAnd X Y => encodeXYF 0x8#4 X Y 0x2#4
  | .bitXor X Y => encodeXYF 0x8#4 X Y 0x3#4
  | .addReg X Y => encodeXYF 0x8#4 X Y 0x4#4
  | .sub X Y => encodeXYF 0x8#4 X Y 0x5#4
  | .shr X Y => encodeXYF 0x8#4 X Y 0x6#4
  | .subn X Y => encodeXYF 0x8#4 X Y 0x7#4
  | .shl X Y => encodeXYF 0x8#4 X Y 0xE#4
  | .sneReg X Y => encodeXYF 0x9#4 X Y 0x0#4
  | .ldI NNN => encodeNNN 0xA#4 NNN
  | .jpV0 NNN => encodeNNN 0xB#4 NNN
  | .rnd X KK => encodeXKK 0xC#4 X KK
  | .drw X Y N => encodeXYF 0xD#4 X Y (fieldNibble N)
  | .skp X => encodeXKK 0xE#4 X 0x9E#8
  | .sknp X => encodeXKK 0xE#4 X 0xA1#8
  | .ldVxDt X => encodeXKK 0xF#4 X 0x07#8
  | .ldVxK X => encodeXKK 0xF#4 X 0x0A#8
  | .ldDtVx X => encodeXKK 0xF#4 X 0x15#8
  | .ldStVx X => encodeXKK 0xF#4 X 0x18#8
  | .addI X => encodeXKK 0xF#4 X 0x1E#8
  | .ldF X => encodeXKK 0xF#4 X 0x29#8
  | .ldB X => encodeXKK 0xF#4 X 0x33#8
  | .ldMemVx X => encodeXKK 0xF#4 X 0x55#8
  | .ldVxMem X => encodeXKK 0xF#4 X 0x65#8

/-- The bytes of an instruction as memory holds them: high byte first (20_memory.md R51). -/
def encodeBytes (i : Instr) : List Byte := [highByte (encode i), lowByte (encode i)]

/-! ### The opcode table's numbering -/

/-- The word of `nbits` bits numbered as spec/opcode_table.json numbers them. The machine's words are 16 bits (R80), so the
first word is the low 16 bits of w. -/
def tableWord (nbits w : Nat) : Word := BitVec.ofNat 16 (w % 2 ^ nbits)

/-- What the decoder reads, under the reference configuration, from the bytes the hardware stores for a table word. -/
def decodeTableWord (nbits w : Nat) : Option Instr :=
  match decodeBytes Config.reference.sysJump [highByte (tableWord nbits w), lowByte (tableWord nbits w)] with
  | .ok (i, _) => some i
  | .error _ => none

end Sys2Proof
end

