-- ==== Sys2Proof/Machine/State.lean ====
section
/-! DEFINITION. The state of the machine (spec/10_state.md), its value at initialization (10_state.md R37) and the reasons a
step can stop. -/

namespace Sys2Proof.Machine

/-- The kinds of execution fault the machine itself reports (60_exceptions.md R211). Entering one is a NEXT state. -/
inductive FaultKind
  /-- The fetched word selects no row of the opcode map (30_encoding.md R84). -/
  | unmatchedOpcode
  /-- CALL with sp = 16 (40_control_flow.md R103). -/
  | stackOverflow
  /-- RET with sp = 0 (40_control_flow.md R100). -/
  | stackUnderflow
  /-- A byte access above address 4095 (20_memory.md R53). -/
  | outOfBoundsAddress
  deriving DecidableEq, Repr

/-- The fault record (60_exceptions.md R212): the faulting instruction's address and word, no word if its fetch faulted. -/
structure FaultRecord where
  kind : FaultKind
  pc : Word
  opcode : Option Word
  deriving DecidableEq, Repr

/-- The engine state (10_state.md R28). -/
inductive Engine
  /-- RUNNING: one instruction per step. -/
  | running
  /-- AWAITING_KEY(X): suspended by LD_VX_K until a key press, which goes to x[X]. -/
  | awaitingKey (X : Reg)
  /-- FAULTED(rec): the run is over. -/
  | faulted (rec : FaultRecord)
  deriving DecidableEq, Repr

/-- What `load` reports to its caller when it fails; the machine is then untouched (60_exceptions.md R216). -/
inductive LoadFault
  /-- The image is longer than 3584 bytes. -/
  | loadOverflow
  /-- The byte source failed. -/
  | loadSourceError
  deriving DecidableEq, Repr

/-- Why the MODEL stops with a fault: never. Every execution fault the spec describes enters the machine state FAULTED, in
which a step does nothing (60_exceptions.md R212, 30_encoding.md R72), so it is a next state (notes/assumptions/6.md). -/
inductive Fault
  deriving DecidableEq, Repr

/-- Why the model gives an instruction no meaning. -/
inductive Refusal
  /-- Raised by an arm of exec whose instruction has no meaning yet, by its mnemonic. No arm does: safe. -/
  | notModelled (mnemonic : String)
  deriving DecidableEq, Repr

/-- Memory: the cells that differ from the reset contents, addresses strictly rising (Memory.wf, Machine/Memory.lean). -/
abbrev Memory := List Host.Cell

/-- A pixel: its row y and its column x. -/
abbrev Pixel := Nat × Nat

/-- The framebuffer: the pixels that are on, row by row, each once (Framebuffer.wf, Machine/Framebuffer.lean). -/
abbrev Framebuffer := List Pixel

/-- Everything the spec gives the machine (10_state.md), its configuration (00_scope.md R8) and its pending inputs. -/
structure State where
  /-- The configuration; no instruction and no host event changes it (00_scope.md R8). -/
  cfg : Config
  /-- The general registers; x[15] is the flag VF (R20, R22). -/
  x : Vector Byte 16
  /-- The index register (R23). -/
  I : Word
  /-- The program counter (R24). -/
  pc : Word
  /-- The call stack (R26). -/
  stack : Vector Word 16
  /-- The stack pointer: the number of occupied slots, 0..16 (R27). -/
  sp : Fin 17
  /-- The engine state, with the AWAITING_KEY target or the fault record (R28). -/
  engine : Engine
  /-- The 4096 bytes of memory (R30). -/
  mem : Memory
  /-- The framebuffer (R31). -/
  fb : Framebuffer
  /-- The delay timer (R32). -/
  DT : Byte
  /-- The sound timer (R32). -/
  ST : Byte
  /-- The key-down vector, owned by the host: bit k is 1 when key k is down (R33). -/
  keys : BitVec 16
  /-- The model's own: random bytes the host has lined up for the coming draws (R34; notes/assumptions/4.md). -/
  randomIn : List Byte
  /-- The model's own: how many draws were taken from the free value Config.randomByte (notes/assumptions/4.md). -/
  randomCount : Nat
  deriving DecidableEq, Repr

/-- The machine right after initialization (10_state.md R37), with the inputs the host and the random source supply. -/
def State.init (cfg : Config) (keys : BitVec 16) (randomIn : List Byte) (randomCount : Nat) : State where
  cfg := cfg
  x := Vector.replicate 16 0#8
  I := 0#16
  pc := 0x200#16
  stack := Vector.replicate 16 0#16
  sp := 0
  engine := .running
  mem := []
  fb := []
  DT := 0#8
  ST := 0#8
  keys := keys
  randomIn := randomIn
  randomCount := randomCount

/-- The machine right after reset: 10_state.md R37 under the reference configuration (00_scope.md R8), no key down and no
random byte lined up (DESIGN CHOICE, notes/assumptions/3.md and 5.md). -/
def State.reset : State := State.init Config.reference 0#16 [] 0

end Sys2Proof.Machine
end

