-- ==== Sys2Proof/Machine/Framebuffer.lean ====
section
/-! DEFINITION. The framebuffer (spec/10_state.md R31) and its xorBlit (spec/43_io.md R182). -/

namespace Sys2Proof.Machine

/-- The order the lit pixels are listed in: row by row, left to right. -/
abbrev Pixel.before (p q : Pixel) : Prop := p.1 < q.1 ∨ p.1 = q.1 ∧ p.2 < q.2

/-- fb[y][x] = 1 for the pixel p = (y, x). -/
def Framebuffer.lit (fb : Framebuffer) (p : Pixel) : Bool := decide (p ∈ fb)

/-- fb[y][x] <- fb[y][x] XOR 1 for the pixel p = (y, x). -/
def Framebuffer.flip : Framebuffer → Pixel → Framebuffer
  | [], p => [p]
  | q :: fb, p => if p = q then fb else if Pixel.before p q then p :: q :: fb else q :: Framebuffer.flip fb p

/-- The pixels of the set bits of one sprite row, left to right: bit 7 is the leftmost, columns wrap modulo FB_W (R182). -/
def rowPixels (W x0 py : Nat) (row : Byte) : List Pixel :=
  (List.range 8).filterMap fun c => if row.getLsbD (7 - c) then some (py, (x0 + c) % W) else none

/-- The pixels of the set bits of a sprite in the order xorBlit visits them: rows going down, wrapping modulo FB_H (R182). -/
def spritePixels (W H x0 : Nat) : Nat → List Byte → List Pixel
  | _, [] => []
  | y, row :: rows => rowPixels W x0 (y % H) row ++ spritePixels W H x0 (y + 1) rows

/-- Flipping pixels one after the other, noting whether one that was set is cleared (R182). -/
def flipPixels : List Pixel → Framebuffer → Bool → Framebuffer × Bool
  | [], fb, collision => (fb, collision)
  | p :: ps, fb, collision => flipPixels ps (fb.flip p) (collision || fb.lit p)

/-- xorBlit(x0, y0, rows) on a W by H framebuffer: the new framebuffer and the collision (R182). -/
def xorBlit (W H : Nat) (fb : Framebuffer) (x0 y0 : Byte) (rows : List Byte) : Framebuffer × Bool :=
  flipPixels (spritePixels W H x0.toNat y0.toNat rows) fb false

/-- The canonical form: pixels strictly rising, all inside the W by H grid. -/
abbrev Framebuffer.wf (W H : Nat) (fb : Framebuffer) : Prop :=
  List.Pairwise Pixel.before fb ∧ ∀ p ∈ fb, p.1 < H ∧ p.2 < W

end Sys2Proof.Machine
end

