-- ==== Sys2Proof/Machine/Memory.lean ====
section
/-! DEFINITION. Memory of single bytes (spec/20_memory.md R50 to R58): reading, writing, and the canonical form. -/

namespace Sys2Proof.Machine

/-- The contents of an address right after initialization: the glyph table at 0..79, zero above (20_memory.md R56, R57,
10_state.md R37). It is what an unlisted address reads as. -/
def resetByte (g : Glyphs) (a : Nat) : Byte := if h : a < 80 then g[a] else 0#8

/-- The byte listed for an address, if one is. -/
def Memory.listed : Memory → Nat → Option Byte
  | [], _ => none
  | (k, b) :: m, a => if a = k then some b else Memory.listed m a

/-- Reading one byte. -/
def Memory.read (g : Glyphs) (m : Memory) (a : Nat) : Byte := (Memory.listed m a).getD (resetByte g a)

/-- Writing one byte, keeping the canonical form: a byte equal to the reset contents is not listed. -/
def Memory.write (g : Glyphs) : Memory → Nat → Byte → Memory
  | [], a, v => if v = resetByte g a then [] else [(a, v)]
  | (k, b) :: m, a, v =>
    if a < k then if v = resetByte g a then (k, b) :: m else (a, v) :: (k, b) :: m
    else if a = k then if v = resetByte g a then m else (a, v) :: m
    else (k, b) :: Memory.write g m a v

/-- The n bytes at a, a+1, .., in ascending address order (00_scope.md R11). -/
def Memory.readRange (g : Glyphs) (m : Memory) (a : Nat) : Nat → List Byte
  | 0 => []
  | n + 1 => Memory.read g m a :: Memory.readRange g m (a + 1) n

/-- Writing byte k of the sequence to address a + k (00_scope.md R11). -/
def Memory.writeRange (g : Glyphs) : Memory → Nat → List Byte → Memory
  | m, _, [] => m
  | m, a, b :: bs => Memory.writeRange g (Memory.write g m a b) (a + 1) bs

/-- The canonical form: addresses strictly rising, all inside memory, no entry equal to the reset contents. -/
abbrev Memory.wf (g : Glyphs) (m : Memory) : Prop :=
  List.Pairwise (fun c d : Host.Cell => c.1 < d.1) m ∧
  ∀ c ∈ m, c.1 < Config.memSize ∧ c.2 ≠ resetByte g c.1

end Sys2Proof.Machine
end

