-- ==== Sys2Proof/Machine/Ops.lean ====
section
/-! DEFINITION. The named operations every meaning is written over: registers, bounds-checked memory, the call stack, the
random draw, the control-flow effect, fault entry and the fetch. -/

namespace Sys2Proof.Machine

/-- What a meaning and a step answer. -/
abbrev Out := Host.Outcome State Fault Refusal

/-! ### Registers (10_state.md R20, R22) -/

/-- x[r]. -/
def State.reg (s : State) (r : Reg) : Byte := s.x[r.val]

/-- x[r] <- v. -/
def State.setReg (s : State) (r : Reg) (v : Byte) : State := { s with x := s.x.set r.val v }

/-- The flag register VF (10_state.md R22). -/
abbrev flagReg : Reg := 15

/-- x[k] <- the first byte, x[k+1] <- the second, ..; no register above 15 is written. -/
def writeRegs : Vector Byte 16 → Nat → List Byte → Vector Byte 16
  | x, _, [] => x
  | x, k, b :: bs => writeRegs (if h : k < 16 then x.set k b h else x) (k + 1) bs

/-! ### Memory, bounds-checked (00_scope.md R11, 20_memory.md R53) -/

/-- One byte of the machine's memory. -/
def State.readByte (s : State) (a : Nat) : Byte := s.mem.read s.cfg.glyphs a

/-- The n bytes at addr .. addr+n-1 are all inside memory; no byte is always inside (R11). -/
abbrev inBounds (addr n : Nat) : Prop := n = 0 ∨ addr + n - 1 ≤ 4095

/-- MemRead(addr, n): the bytes in ascending address order, or nothing if one is outside memory (R11). -/
def State.memRead (s : State) (addr n : Nat) : Option (List Byte) :=
  if inBounds addr n then some (s.mem.readRange s.cfg.glyphs addr n) else none

/-- MemWrite(addr, n, bytes) with n the number of bytes: all of them, or none if one is outside memory (R11, D4). -/
def State.memWrite (s : State) (addr : Nat) (bytes : List Byte) : Option State :=
  if inBounds addr bytes.length then some { s with mem := s.mem.writeRange s.cfg.glyphs addr bytes } else none

/-! ### The call stack (10_state.md R26, R27) -/

/-- Push: stack[sp] <- v, then sp <- sp + 1; nothing if sp = 16. -/
def State.push (s : State) (v : Word) : Option State :=
  if h : s.sp.val < 16 then some { s with stack := s.stack.set s.sp.val v h, sp := ⟨s.sp.val + 1, by omega⟩ } else none

/-- Pop: sp <- sp - 1, then stack[sp], which keeps its value; nothing if sp = 0. -/
def State.pop (s : State) : Option (Word × State) :=
  if h : 0 < s.sp.val then
    some (s.stack[s.sp.val - 1]'(by have := s.sp.isLt; omega), { s with sp := ⟨s.sp.val - 1, by have := s.sp.isLt; omega⟩ })
  else none

/-! ### The random source (10_state.md R34) -/

/-- The byte the next draw yields: the one the host has lined up, else a free value (D17; notes/assumptions/4.md). -/
def State.drawn (s : State) : Byte :=
  match s.randomIn with
  | b :: _ => b
  | [] => Config.randomByte s.randomCount

/-- The inputs after a draw: the lined-up byte is used up, or the count of free draws advances. -/
def State.afterDraw (s : State) : State :=
  match s.randomIn with
  | _ :: bs => { s with randomIn := bs }
  | [] => { s with randomCount := s.randomCount + 1 }

/-! ### The control-flow effect (30_encoding.md R85, R86) -/

/-- What a handler that completes hands to the engine (R85). -/
inductive Effect
  /-- Advance pc by 2. -/
  | next
  /-- Advance pc by 4. -/
  | skip
  /-- Set pc to the address. -/
  | jump (target : Word)
  /-- Suspend until a key press, which goes to x[X]. -/
  | suspend (X : Reg)
  deriving DecidableEq, Repr

/-- Effect application, the only writer of pc while instructions run (R86). -/
def State.applyEffect (s : State) : Effect → State
  | .next => { s with pc := s.pc + 2#16 }
  | .skip => { s with pc := s.pc + 4#16 }
  | .jump t => { s with pc := t }
  | .suspend X => { s with engine := .awaitingKey X }

/-- `effect E`: the handler has completed in state s (00_scope.md R12). -/
def finish (e : Effect) (s : State) : Out := .next (s.applyEffect e)

/-! ### Taking a fault (60_exceptions.md R212, R213)

This is the machine's one exception entry. There is no return from it: R215 gives no trap handler and no return
instruction, and only the host's init, reset and load leave FAULTED (Machine/Events.lean). -/

/-- Fault entry: engine <- FAULTED(kind, pc, opcode); nothing else changes, pc stays (R212, R213, 30_encoding.md R87). -/
def State.enterFault (s : State) (kind : FaultKind) (opcode : Option Word) : State :=
  { s with engine := .faulted { kind := kind, pc := s.pc, opcode := opcode } }

/-- `raise F` in the handler of instruction i. The record's opcode is the instruction's own word, which its encoding gives
back whole (30_encoding.md R90; notes/assumptions/7.md). -/
def raise (kind : FaultKind) (i : Instr) (s : State) : Out := .next (s.enterFault kind (some (encode i)))

/-! ### Fetch (30_encoding.md R73) -/

/-- The word at pc, the byte at pc the high one; nothing if pc + 1 > 4095 (20_memory.md R51, R53). -/
def State.fetch (s : State) : Option Word :=
  if inBounds s.pc.toNat 2 then some (wordOfBytes (s.readByte s.pc.toNat) (s.readByte (s.pc.toNat + 1))) else none

/-- What fetch and decode give a RUNNING engine: an instruction to run, or the state of the fault they raise. -/
inductive Fetched
  /-- The word at pc decodes to this instruction. -/
  | run (i : Instr)
  /-- The fetch or the decoder raised a fault; this is the state after its entry. -/
  | stop (s : State)
  deriving DecidableEq, Repr

/-- Fetch, split and decode (30_encoding.md R70 (1) to (3)), with the faults of both in the order of 60_exceptions.md R217:
OutOfBoundsAddress with no opcode (30_encoding.md R73, D21), then UnmatchedOpcode with the word (30_encoding.md R84). -/
def State.fetchDecode (s : State) : Fetched :=
  match s.fetch with
  | none => .stop (s.enterFault .outOfBoundsAddress none)
  | some w =>
    match decode s.cfg.sysJump w with
    | .ok i => .run i
    | .error _ => .stop (s.enterFault .unmatchedOpcode (some w))

/-- A pc at which a fetch succeeds: s.pc, or the program base where pc + 1 is outside memory. -/
def State.fetchablePc (s : State) : Word := if inBounds s.pc.toNat 2 then s.pc else BitVec.ofNat 16 Config.progBase

/-- The word w in the two bytes a RUNNING engine fetches next, high byte first (20_memory.md R51): what
State.withFetchWord (Machine/Step.lean) stands on (notes/assumptions/18.md). -/
def State.placeWord (s : State) (w : Word) : State :=
  { s with
    pc := s.fetchablePc
    engine := .running
    mem := s.mem.writeRange s.cfg.glyphs s.fetchablePc.toNat [highByte w, lowByte w] }

end Sys2Proof.Machine
end

