-- ==== Sys2Proof/Machine/Flags.lean ====
section
/-! DEFINITION. The flag computations (10_state.md R22, 41_alu.md R130) and the write-back of a result and its flag
(41_alu.md R132). -/

namespace Sys2Proof.Machine

/-- A flag value: 1 or 0 in 8 bits (10_state.md R22). -/
def flagByte (b : Bool) : Byte := if b then 1#8 else 0#8

/-- The carry of an addition: the exact sum exceeds 255 (41_alu.md R130, R139). -/
def carryFlag (a b : Byte) : Byte := flagByte (decide (a.toNat + b.toNat > 255))

/-- The no-borrow flag of a - b: a ≥ b (41_alu.md R130, R140). -/
def noBorrowFlag (a b : Byte) : Byte := flagByte (decide (a.toNat ≥ b.toNat))

/-- The bit a right shift moves out, v[0:0] (41_alu.md R143). -/
def shiftedOutLow (v : Byte) : Byte := flagByte (v.getLsbD 0)

/-- The bit a left shift moves out, v[7:7] (41_alu.md R144). -/
def shiftedOutHigh (v : Byte) : Byte := flagByte (v.getLsbD 7)

/-- (a + b) mod 256 (41_alu.md R130). -/
def sum8 (a b : Byte) : Byte := BitVec.ofNat 8 (a.toNat + b.toNat)

/-- (a - b) mod 256 (41_alu.md R130). -/
def difference8 (a b : Byte) : Byte := BitVec.ofNat 8 (a.toNat + 256 - b.toNat)

/-- v >> 1, a logical shift (41_alu.md R143). -/
def half8 (v : Byte) : Byte := BitVec.ofNat 8 (v.toNat / 2)

/-- (v * 2) mod 256 (41_alu.md R144). -/
def double8 (v : Byte) : Byte := BitVec.ofNat 8 (v.toNat * 2)

/-- WriteDestAndFlag(X, r, f): both writes, in the order FLAG_ORDER gives (41_alu.md R132). -/
def State.writeDestAndFlag (s : State) (X : Reg) (r f : Byte) : State :=
  match s.cfg.flagOrder with
  | .flagThenDest => (s.setReg flagReg f).setReg X r
  | .destThenFlag => (s.setReg X r).setReg flagReg f

end Sys2Proof.Machine
end

