-- ==== Sys2Proof/Machine/Operands.lean ====
section
/-! DEFINITION. The operand forms of the instructions: every value an instruction computes from its fields and registers
before it acts (30_encoding.md R82). -/

namespace Sys2Proof.Machine

/-- An absolute target, NNN zero-extended (30_encoding.md R75, R82). -/
def absoluteTarget (NNN : Addr) : Word := NNN.setWidth 16

/-- The target of JP_V0: NNN + x[0], at most 4350, not reduced (40_control_flow.md R108). -/
def offsetTarget (NNN : Addr) (v0 : Byte) : Word := BitVec.ofNat 16 (NNN.toNat + v0.toNat)

/-- The target of RET: two bytes past the popped CALL (40_control_flow.md R100). -/
def returnTarget (slot : Word) : Word := slot + 2#16

/-- src(X, Y), the operand SHR and SHL shift (41_alu.md R142). -/
def State.shiftSource (s : State) (X Y : Reg) : Byte :=
  match s.cfg.shiftSource with
  | .x => s.reg X
  | .y => s.reg Y

/-- The low nibble of a register value, v[3:0] (42_index_memory.md R162, 43_io.md R184). -/
def lowNibble (v : Byte) : Fin 16 := ⟨v.toNat % 16, Nat.mod_lt _ (by omega)⟩

/-- isDown(k): bit k of the key-down vector (10_state.md R33). -/
def State.isDown (s : State) (k : Key) : Bool := s.keys.getLsbD k.val

/-- glyphAddress(d) = 5 * d, 0..75 (30_encoding.md R78). -/
def glyphAddress (d : Fin 16) : Word := BitVec.ofNat 16 (5 * d.val)

/-- The index register after ADD_I: (I + v) mod 65536 (42_index_memory.md R161). -/
def indexSum (I : Word) (v : Byte) : Word := BitVec.ofNat 16 (I.toNat + v.toNat)

/-- The three BCD digits of a byte: hundreds, tens, ones (42_index_memory.md R163). -/
def bcdDigits (v : Byte) : List Byte :=
  [BitVec.ofNat 8 (v.toNat / 100), BitVec.ofNat 8 (v.toNat / 10 % 10), BitVec.ofNat 8 (v.toNat % 10)]

/-- x[0], .., x[X], the bytes of a register dump in ascending register order (42_index_memory.md R164). -/
def State.regsUpTo (s : State) (X : Reg) : List Byte := s.x.toList.take (X.val + 1)

end Sys2Proof.Machine
end

