-- ==== Sys2Proof/Machine/Alu.lean ====
section
/-! DEFINITION. Register loads, arithmetic, logic and shifts (spec/41_alu.md). Every operand is read from the state before
the instruction (R131). -/

namespace Sys2Proof.Machine

/-- LD_IMM (R133). -/
def execLdImm (X : Reg) (KK : Byte) (s : State) : Out := finish .next (s.setReg X KK)

/-- ADD_IMM (R134): no flag. -/
def execAddImm (X : Reg) (KK : Byte) (s : State) : Out := finish .next (s.setReg X (sum8 (s.reg X) KK))

/-- LD_REG (R135). -/
def execLdReg (X Y : Reg) (s : State) : Out := finish .next (s.setReg X (s.reg Y))

/-- OR (R136). -/
def execBitOr (X Y : Reg) (s : State) : Out := finish .next (s.setReg X (s.reg X ||| s.reg Y))

/-- AND (R137). -/
def execBitAnd (X Y : Reg) (s : State) : Out := finish .next (s.setReg X (s.reg X &&& s.reg Y))

/-- XOR (R138). -/
def execBitXor (X Y : Reg) (s : State) : Out := finish .next (s.setReg X (s.reg X ^^^ s.reg Y))

/-- ADD_REG (R139). -/
def execAddReg (X Y : Reg) (s : State) : Out :=
  finish .next (s.writeDestAndFlag X (sum8 (s.reg X) (s.reg Y)) (carryFlag (s.reg X) (s.reg Y)))

/-- SUB (R140): x[X] - x[Y]. -/
def execSub (X Y : Reg) (s : State) : Out :=
  finish .next (s.writeDestAndFlag X (difference8 (s.reg X) (s.reg Y)) (noBorrowFlag (s.reg X) (s.reg Y)))

/-- SHR (R143). -/
def execShr (X Y : Reg) (s : State) : Out :=
  finish .next (s.writeDestAndFlag X (half8 (s.shiftSource X Y)) (shiftedOutLow (s.shiftSource X Y)))

/-- SUBN (R141): x[Y] - x[X]. -/
def execSubn (X Y : Reg) (s : State) : Out :=
  finish .next (s.writeDestAndFlag X (difference8 (s.reg Y) (s.reg X)) (noBorrowFlag (s.reg Y) (s.reg X)))

/-- SHL (R144). -/
def execShl (X Y : Reg) (s : State) : Out :=
  finish .next (s.writeDestAndFlag X (double8 (s.shiftSource X Y)) (shiftedOutHigh (s.shiftSource X Y)))

end Sys2Proof.Machine
end

