-- ==== Sys2Proof/Machine/Control.lean ====
section
/-! DEFINITION. Control flow: RET, SYS, JP, CALL, the register skips and JP_V0 (spec/40_control_flow.md). -/

namespace Sys2Proof.Machine

/-- RET (R100). -/
def execRet (s : State) : Out :=
  match s.pop with
  | none => raise .stackUnderflow .ret s
  | some (t, s') => finish (.jump (returnTarget t)) s'

/-- SYS (R101): with SYS_JUMP false its word is unmatched. -/
def execSys (NNN : Addr) (s : State) : Out :=
  if s.cfg.sysJump then finish (.jump (absoluteTarget NNN)) s else raise .unmatchedOpcode (.sys NNN) s

/-- JP (R102). -/
def execJp (NNN : Addr) (s : State) : Out := finish (.jump (absoluteTarget NNN)) s

/-- CALL (R103): the pushed value is the address of this CALL. -/
def execCall (NNN : Addr) (s : State) : Out :=
  match s.push s.pc with
  | none => raise .stackOverflow (.call NNN) s
  | some s' => finish (.jump (absoluteTarget NNN)) s'

/-- The effect of a conditional skip (R104 to R107, R109). -/
def skipIf (c : Bool) : Effect := if c then .skip else .next

/-- SE_IMM (R104). -/
def execSeImm (X : Reg) (KK : Byte) (s : State) : Out := finish (skipIf (s.reg X == KK)) s

/-- SNE_IMM (R105). -/
def execSneImm (X : Reg) (KK : Byte) (s : State) : Out := finish (skipIf (s.reg X != KK)) s

/-- SE_REG (R106). -/
def execSeReg (X Y : Reg) (s : State) : Out := finish (skipIf (s.reg X == s.reg Y)) s

/-- SNE_REG (R107). -/
def execSneReg (X Y : Reg) (s : State) : Out := finish (skipIf (s.reg X != s.reg Y)) s

/-- JP_V0 (R108): always x[0]. -/
def execJpV0 (NNN : Addr) (s : State) : Out := finish (.jump (offsetTarget NNN (s.reg 0))) s

end Sys2Proof.Machine
end

