-- ==== Sys2Proof/Machine/Index.lean ====
section
/-! DEFINITION. The index register, the glyph address, BCD, register dump and load (spec/42_index_memory.md). The effective
address of byte k of an access is I + k, exact; I is never changed by an access (R166). -/

namespace Sys2Proof.Machine

/-- LD_I (R160). -/
def execLdI (NNN : Addr) (s : State) : Out := finish .next { s with I := absoluteTarget NNN }

/-- ADD_I (R161): no flag, no fault. -/
def execAddI (X : Reg) (s : State) : Out := finish .next { s with I := indexSum s.I (s.reg X) }

/-- LD_F (R162): the digit is the low nibble of x[X]. -/
def execLdF (X : Reg) (s : State) : Out := finish .next { s with I := glyphAddress (lowNibble (s.reg X)) }

/-- LD_B (R163). -/
def execLdB (X : Reg) (s : State) : Out :=
  match s.memWrite s.I.toNat (bcdDigits (s.reg X)) with
  | none => raise .outOfBoundsAddress (.ldB X) s
  | some s' => finish .next s'

/-- LD_MEM_VX (R164). -/
def execLdMemVx (X : Reg) (s : State) : Out :=
  match s.memWrite s.I.toNat (s.regsUpTo X) with
  | none => raise .outOfBoundsAddress (.ldMemVx X) s
  | some s' => finish .next s'

/-- LD_VX_MEM (R165). -/
def execLdVxMem (X : Reg) (s : State) : Out :=
  match s.memRead s.I.toNat (X.val + 1) with
  | none => raise .outOfBoundsAddress (.ldVxMem X) s
  | some bs => finish .next { s with x := writeRegs s.x 0 bs }

end Sys2Proof.Machine
end

