-- ==== Sys2Proof/Machine/Io.lean ====
section
/-! DEFINITION. Framebuffer, random, keypad and timer instructions (spec/43_io.md). -/

namespace Sys2Proof.Machine

/-- CLS (R180): every pixel off. -/
def execCls (s : State) : Out := finish .next { s with fb := [] }

/-- RND (R181): the drawn byte AND KK. -/
def execRnd (X : Reg) (KK : Byte) (s : State) : Out := finish .next (s.afterDraw.setReg X (s.drawn &&& KK))

/-- The sprite is on the framebuffer and VF holds the collision (R183). -/
def State.drawSprite (s : State) (x0 y0 : Byte) (rows : List Byte) : State :=
  { s with fb := (xorBlit s.cfg.fbW s.cfg.fbH s.fb x0 y0 rows).1 }.setReg flagReg
    (flagByte (xorBlit s.cfg.fbW s.cfg.fbH s.fb x0 y0 rows).2)

/-- DRW (R183): the bounds check comes before any pixel changes. -/
def execDrw (X Y : Reg) (N : Fin 16) (s : State) : Out :=
  match s.memRead s.I.toNat N.val with
  | none => raise .outOfBoundsAddress (.drw X Y N) s
  | some rows => finish .next (s.drawSprite (s.reg X) (s.reg Y) rows)

/-- SKP (R184): the key is the low nibble of x[X]. -/
def execSkp (X : Reg) (s : State) : Out := finish (skipIf (s.isDown (lowNibble (s.reg X)))) s

/-- SKNP (R185). -/
def execSknp (X : Reg) (s : State) : Out := finish (skipIf (!s.isDown (lowNibble (s.reg X)))) s

/-- LD_VX_DT (R186). -/
def execLdVxDt (X : Reg) (s : State) : Out := finish .next (s.setReg X s.DT)

/-- LD_VX_K (R187): x[X] is written later, by the key press (Machine/Events.lean). -/
def execLdVxK (X : Reg) (s : State) : Out := finish (.suspend X) s

/-- LD_DT_VX (R190). -/
def execLdDtVx (X : Reg) (s : State) : Out := finish .next { s with DT := s.reg X }

/-- LD_ST_VX (R191). -/
def execLdStVx (X : Reg) (s : State) : Out := finish .next { s with ST := s.reg X }

end Sys2Proof.Machine
end

