-- ==== Sys2Proof/Machine/Dispatch.lean ====
section
/-! DEFINITION. One arm per row of the opcode map (30_encoding.md R70 (4), (5), R90). -/

namespace Sys2Proof.Machine

def exec (i : Instr) (s : State) : Host.Outcome State Fault Refusal :=
  match i with
  | .cls => Sys2Proof.Machine.execCls s
  | .ret => Sys2Proof.Machine.execRet s
  | .sys NNN => Sys2Proof.Machine.execSys NNN s
  | .jp NNN => Sys2Proof.Machine.execJp NNN s
  | .call NNN => Sys2Proof.Machine.execCall NNN s
  | .seImm X KK => Sys2Proof.Machine.execSeImm X KK s
  | .sneImm X KK => Sys2Proof.Machine.execSneImm X KK s
  | .seReg X Y => Sys2Proof.Machine.execSeReg X Y s
  | .ldImm X KK => Sys2Proof.Machine.execLdImm X KK s
  | .addImm X KK => Sys2Proof.Machine.execAddImm X KK s
  | .ldReg X Y => Sys2Proof.Machine.execLdReg X Y s
  | .bitOr X Y => Sys2Proof.Machine.execBitOr X Y s
  | .bitAnd X Y => Sys2Proof.Machine.execBitAnd X Y s
  | .bitXor X Y => Sys2Proof.Machine.execBitXor X Y s
  | .addReg X Y => Sys2Proof.Machine.execAddReg X Y s
  | .sub X Y => Sys2Proof.Machine.execSub X Y s
  | .shr X Y => Sys2Proof.Machine.execShr X Y s
  | .subn X Y => Sys2Proof.Machine.execSubn X Y s
  | .shl X Y => Sys2Proof.Machine.execShl X Y s
  | .sneReg X Y => Sys2Proof.Machine.execSneReg X Y s
  | .ldI NNN => Sys2Proof.Machine.execLdI NNN s
  | .jpV0 NNN => Sys2Proof.Machine.execJpV0 NNN s
  | .rnd X KK => Sys2Proof.Machine.execRnd X KK s
  | .drw X Y N => Sys2Proof.Machine.execDrw X Y N s
  | .skp X => Sys2Proof.Machine.execSkp X s
  | .sknp X => Sys2Proof.Machine.execSknp X s
  | .ldVxDt X => Sys2Proof.Machine.execLdVxDt X s
  | .ldVxK X => Sys2Proof.Machine.execLdVxK X s
  | .ldDtVx X => Sys2Proof.Machine.execLdDtVx X s
  | .ldStVx X => Sys2Proof.Machine.execLdStVx X s
  | .addI X => Sys2Proof.Machine.execAddI X s
  | .ldF X => Sys2Proof.Machine.execLdF X s
  | .ldB X => Sys2Proof.Machine.execLdB X s
  | .ldMemVx X => Sys2Proof.Machine.execLdMemVx X s
  | .ldVxMem X => Sys2Proof.Machine.execLdVxMem X s

end Sys2Proof.Machine
end

