-- ==== Sys2Proof/Machine/Step.lean ====
section
/-! DEFINITION. One step of the engine (30_encoding.md R70 to R72), and placing an instruction where it fetches. -/

namespace Sys2Proof.Machine

/-- step(): in AWAITING_KEY and FAULTED nothing happens (R71, R72); in RUNNING one instruction is fetched, decoded and
executed, or the fault of its fetch or decoding is entered (R70, R73, R84). -/
def step (s : State) : Host.Outcome State Fault Refusal :=
  match s.engine with
  | .awaitingKey _ => .next s
  | .faulted _ => .next s
  | .running =>
    match s.fetchDecode with
    | .run i => exec i s
    | .stop t => .next t

/-- s with the instruction word w placed at pc and the engine RUNNING, so that the very next step fetches and runs it; a pc
at which no fetch succeeds is first set to the program base (notes/assumptions/18.md). -/
def State.withFetchWord (s : State) (nbits w : Nat) : State := s.placeWord (tableWord nbits w)

end Sys2Proof.Machine
end

