-- ==== Sys2Proof/Machine/Events.lean ====
section
/-! DEFINITION. The host events (10_state.md R35, R36; 60_exceptions.md R219): what the host may do to the machine between
two steps, each as one atomic event (notes/assumptions/8.md). -/

namespace Sys2Proof.Machine

/-- keyPress(k): completes an await in progress (43_io.md R188); in any other engine state it is dropped (R192). -/
def State.keyPress (s : State) (k : Key) : State :=
  match s.engine with
  | .awaitingKey X => { s.setReg X (BitVec.ofNat 8 k.val) with pc := s.pc + 2#16, engine := .running }
  | .running => s
  | .faulted _ => s

/-- A timer after one tick: down by one, floor-clamped at zero (60_exceptions.md R222). -/
def countDown (t : Byte) : Byte := BitVec.ofNat 8 (t.toNat - 1)

/-- tick(): both timers, whatever the engine state (60_exceptions.md R222). -/
def State.tick (s : State) : State := { s with DT := countDown s.DT, ST := countDown s.ST }

/-- The host changes the key-down vector (10_state.md R33). -/
def State.setKeys (s : State) (v : BitVec 16) : State := { s with keys := v }

/-- The host lines up the bytes of the coming random draws (10_state.md R34, R35; notes/assumptions/4.md). -/
def State.supplyRandom (s : State) (bs : List Byte) : State := { s with randomIn := s.randomIn ++ bs }

/-- init() (70_reset_and_hazards.md R240): every piece of CORE state at its value of 10_state.md R37. The configuration and
what the host and the random source supply are not CORE state and stay (notes/assumptions/9.md). -/
def State.initialize (s : State) : State := State.init s.cfg s.keys s.randomIn s.randomCount

/-- reset() is init() (70_reset_and_hazards.md R242, D36). -/
def State.hostReset (s : State) : State := s.initialize

/-- What load answers: a load fault, or none, and the machine after it. -/
abbrev LoadAnswer := Option LoadFault × State

/-- load(image) (70_reset_and_hazards.md R241): a failing source (none) and an over-long image are reported and leave the
machine as it is (60_exceptions.md R216); else initialize, then copy the image to 512 upward. -/
def State.load (s : State) (source : Option (List Byte)) : LoadAnswer :=
  match source with
  | none => (some .loadSourceError, s)
  | some image =>
    if image.length > Config.progMax then (some .loadOverflow, s)
    else (none, { s.initialize with mem := s.initialize.mem.writeRange s.cfg.glyphs Config.progBase image })

/-- The host events. -/
inductive HostEvent
  | keyPress (k : Key)
  | tick
  | setKeys (v : BitVec 16)
  | supplyRandom (bs : List Byte)
  | init
  | reset
  | load (source : Option (List Byte))
  deriving DecidableEq, Repr

/-- The state after a host event. -/
def State.after (s : State) : HostEvent → State
  | .keyPress k => s.keyPress k
  | .tick => s.tick
  | .setKeys v => s.setKeys v
  | .supplyRandom bs => s.supplyRandom bs
  | .init => s.initialize
  | .reset => s.hostReset
  | .load source => (s.load source).2

/-- The numeric code of an execution fault kind (60_exceptions.md R211, D22). -/
def FaultKind.code : FaultKind → Nat
  | .unmatchedOpcode => 0
  | .stackOverflow => 1
  | .stackUnderflow => 2
  | .outOfBoundsAddress => 3

/-- The numeric code of a load fault (60_exceptions.md R216, D22). -/
def LoadFault.code : LoadFault → Nat
  | .loadOverflow => 4
  | .loadSourceError => 5

/-- The CORE's only sound output: tone on while ST > 0 (60_exceptions.md R224). -/
def State.toneOn (s : State) : Bool := decide (s.ST.toNat > 0)

end Sys2Proof.Machine
end

