-- ==== Sys2Proof/Machine/Run.lean ====
section
/-! DEFINITION. Steps and host events interleaved in any order (10_state.md R36, 70_reset_and_hazards.md R249). -/

namespace Sys2Proof.Machine

/-- What may happen next: a step of the engine or a host event. -/
inductive Action
  | step
  | event (e : HostEvent)
  deriving DecidableEq, Repr

/-- One action. -/
def act (a : Action) (s : State) : Out :=
  match a with
  | .step => step s
  | .event e => .next (s.after e)

/-- A sequence of actions, stopping where the model stops. -/
def runActions : List Action → State → Out
  | [], s => .next s
  | a :: rest, s =>
    match act a s with
    | .next t => runActions rest t
    | .fault f => .fault f
    | .refused r => .refused r

/-- The states a machine of some configuration and inputs can come to, under any interleaving of steps and host events. -/
inductive Reachable : State → Prop
  | init (cfg : Config) (hcfg : cfg.wf) (keys : BitVec 16) (randomIn : List Byte) (n : Nat) :
      Reachable (State.init cfg keys randomIn n)
  | act {s t : State} (a : Action) (h : Reachable s) (hs : act a s = .next t) : Reachable t

end Sys2Proof.Machine
end

