-- ==== Sys2Proof/Safety.lean ====
section
/-! DEFINITION. The terms claims about the machine are made in: which part of the state two states share, what an
instruction of one shape does, fault entry, the invariant of every run, and the two ends of a run. -/

namespace Sys2Proof.Machine

/-! ### What is left unchanged -/

/-- The parts of State a claim can name. -/
inductive Part
  | cfg | regs | I | pc | stack | sp | engine | memory | fb | DT | ST | keys | random
  deriving DecidableEq, Repr

/-- The states agree on one part; memory agrees when every byte reads the same. -/
def SamePart (s t : State) : Part → Prop
  | .cfg => t.cfg = s.cfg
  | .regs => ∀ r : Reg, t.reg r = s.reg r
  | .I => t.I = s.I
  | .pc => t.pc = s.pc
  | .stack => t.stack = s.stack
  | .sp => t.sp = s.sp
  | .engine => t.engine = s.engine
  | .memory => ∀ a : Nat, t.readByte a = s.readByte a
  | .fb => t.fb = s.fb
  | .DT => t.DT = s.DT
  | .ST => t.ST = s.ST
  | .keys => t.keys = s.keys
  | .random => t.randomIn = s.randomIn ∧ t.randomCount = s.randomCount

/-- Every part outside the list is as it was. -/
def KeepsAllBut (changed : List Part) (s t : State) : Prop := ∀ p : Part, p ∉ changed → SamePart s t p

/-! ### What an instruction of one shape does -/

/-- x[X] holds v, pc has advanced by 2, and nothing else has changed. -/
def WritesOnlyReg (X : Reg) (v : Byte) (s t : State) : Prop :=
  t.reg X = v ∧ (∀ r : Reg, r ≠ X → t.reg r = s.reg r) ∧ t.pc = s.pc + 2#16 ∧ KeepsAllBut [.regs, .pc] s t

/-- The result r is in x[X] and the flag f in x[15]; where X is 15 the write FLAG_ORDER puts last stays (41_alu.md R132);
pc has advanced by 2, and nothing else has changed. -/
def WritesResultAndFlag (X : Reg) (r f : Nat) (s t : State) : Prop :=
  (X ≠ 15 → (t.reg X).toNat = r ∧ (t.reg 15).toNat = f) ∧
  (X = 15 → (s.cfg.flagOrder = .flagThenDest → (t.reg 15).toNat = r) ∧
    (s.cfg.flagOrder = .destThenFlag → (t.reg 15).toNat = f)) ∧
  (∀ q : Reg, q ≠ X → q ≠ 15 → t.reg q = s.reg q) ∧ t.pc = s.pc + 2#16 ∧ KeepsAllBut [.regs, .pc] s t

/-- pc has advanced by 4 if the condition holds and by 2 if not, and nothing else has changed (30_encoding.md R86). -/
def SkipsIf (c : Prop) (s t : State) : Prop :=
  (c → t.pc = s.pc + 4#16) ∧ (¬c → t.pc = s.pc + 2#16) ∧ KeepsAllBut [.pc] s t

/-- pc is the target and nothing else has changed. -/
def JumpsTo (target : Nat) (s t : State) : Prop := t.pc.toNat = target ∧ KeepsAllBut [.pc] s t

/-- The machine has entered FAULTED with the record of the instruction at pc, and nothing else has changed, pc included
(60_exceptions.md R212, R213). -/
def EntersFault (kind : FaultKind) (opcode : Option Word) (s t : State) : Prop :=
  t.engine = .faulted { kind := kind, pc := s.pc, opcode := opcode } ∧ KeepsAllBut [.engine] s t

/-! ### Sprites, as 43_io.md R182 and R183 describe them -/

/-- Bit c (from the left) of sprite row r is set, the sprite read from I upward. -/
def SpriteBit (s : State) (r c : Nat) : Bool := (s.readByte (s.I.toNat + r)).getLsbD (7 - c)

/-- Where bit c of row r of a sprite drawn at column x0 and row y0 falls: (row, column). -/
def SpritePixel (s : State) (x0 y0 r c : Nat) : Pixel := ((y0 + r) % s.cfg.fbH, (x0 + c) % s.cfg.fbW)

/-- How many set bits of an N-row sprite fall on a pixel. -/
def SpriteHits (s : State) (x0 y0 N : Nat) (p : Pixel) : Nat :=
  (List.range N ×ˢ List.range 8).countP fun rc => SpriteBit s rc.1 rc.2 && SpritePixel s x0 y0 rc.1 rc.2 == p

/-! ### The invariant of every run -/

/-- What holds in every state a machine comes to: a legal configuration, memory and framebuffer in their canonical forms,
a pc and stack slots small enough that no pc sum wraps (10_state.md R25), and a fault record that is that of the word at
pc (60_exceptions.md R212). -/
structure Inv (s : State) : Prop where
  cfg : s.cfg.wf
  mem : Memory.wf s.cfg.glyphs s.mem
  fb : Framebuffer.wf s.cfg.fbW s.cfg.fbH s.fb
  pc : s.pc.toNat ≤ 4350
  stack : ∀ k : Fin 16, s.stack[k.val].toNat ≤ 4094
  awaiting : ∀ X, s.engine = .awaitingKey X → s.pc.toNat ≤ 4094
  faulted : ∀ r, s.engine = .faulted r → r.pc = s.pc ∧ r.opcode = s.fetch

/-- What 10_state.md R37 gives every piece of state right after initialization. -/
def IsInitial (t : State) : Prop :=
  (∀ r : Reg, t.reg r = 0#8) ∧ t.I = 0#16 ∧ t.pc = 512#16 ∧ (∀ k : Fin 16, t.stack[k.val] = 0#16) ∧ t.sp = 0 ∧
  t.engine = .running ∧ (∀ a : Fin 80, t.readByte a.val = t.cfg.glyphs[a.val]) ∧
  (∀ a : Nat, 80 ≤ a → t.readByte a = 0#8) ∧ (∀ p : Pixel, t.fb.lit p = false) ∧ t.DT = 0#8 ∧ t.ST = 0#8

/-! ### The ends of a run -/

/-- FAULTED: the failed end (60_exceptions.md R215, 70_reset_and_hazards.md R250). -/
def State.failed (s : State) : Bool :=
  match s.engine with
  | .faulted _ => true
  | .running => false
  | .awaitingKey _ => false

/-- The successful end: RUNNING at a jump to its own address (70_reset_and_hazards.md R250). -/
def State.finished (s : State) : Bool :=
  match s.engine, s.fetchDecode with
  | .running, .run (.jp NNN) => NNN.toNat == s.pc.toNat
  | .running, .run (.sys NNN) => NNN.toNat == s.pc.toNat
  | _, _ => false

/-! ### Encodings -/

/-- The word is the instruction's: it decodes to it under every SYS_JUMP, and is what the encoder gives. -/
def Encodes (w : Nat) (i : Instr) : Prop :=
  (∀ sj : Bool, decode sj (BitVec.ofNat 16 w) = .ok i) ∧ encode i = BitVec.ofNat 16 w

/-- The instruction at pc: the word there decodes to it. -/
def InstrAt (s : State) (i : Instr) : Prop := ∃ w : Word, s.fetch = some w ∧ decode s.cfg.sysJump w = .ok i

/-! ### Which instruction may write what -/

/-- The registers an instruction may write, as 10_state.md R21 lists them (the key press of LD_VX_K is a host event). -/
def mayWriteReg (i : Instr) (r : Reg) : Bool :=
  match i with
  | .ldImm X _ | .addImm X _ | .ldReg X _ | .bitOr X _ | .bitAnd X _ | .bitXor X _ | .rnd X _ | .ldVxDt X => r == X
  | .addReg X _ | .sub X _ | .subn X _ | .shr X _ | .shl X _ => r == X || r == 15
  | .ldVxMem X => decide (r ≤ X)
  | .drw _ _ _ => r == 15
  | .cls | .ret | .sys _ | .jp _ | .call _ | .seImm _ _ | .sneImm _ _ | .seReg _ _ | .sneReg _ _ | .ldI _ => false
  | .jpV0 _ | .skp _ | .sknp _ | .ldVxK _ | .ldDtVx _ | .ldStVx _ | .addI _ | .ldF _ | .ldB _ | .ldMemVx _ => false

/-- The parts of the state an instruction may change, its fault entry included (10_state.md R21, R23, R26, R27, R31, R32;
20_memory.md R54; 60_exceptions.md R211). -/
def mayChange : Instr → List Part
  | .cls => [.fb, .pc]
  | .ret => [.sp, .pc, .engine]
  | .sys _ => [.pc, .engine]
  | .call _ => [.stack, .sp, .pc, .engine]
  | .jp _ | .jpV0 _ | .seImm _ _ | .sneImm _ _ | .seReg _ _ | .sneReg _ _ | .skp _ | .sknp _ => [.pc]
  | .ldImm _ _ | .addImm _ _ | .ldReg _ _ | .bitOr _ _ | .bitAnd _ _ | .bitXor _ _ | .ldVxDt _ => [.regs, .pc]
  | .addReg _ _ | .sub _ _ | .subn _ _ | .shr _ _ | .shl _ _ => [.regs, .pc]
  | .ldI _ | .addI _ | .ldF _ => [.I, .pc]
  | .ldB _ | .ldMemVx _ => [.memory, .pc, .engine]
  | .ldVxMem _ => [.regs, .pc, .engine]
  | .rnd _ _ => [.regs, .random, .pc]
  | .drw _ _ _ => [.fb, .regs, .pc, .engine]
  | .ldVxK _ => [.engine]
  | .ldDtVx _ => [.DT, .pc]
  | .ldStVx _ => [.ST, .pc]

/-- The bytes an instruction stores, from I upward: the list its meaning hands to MemWrite (42_index_memory.md R163, R164),
and no byte for an instruction that stores nothing (20_memory.md R54). -/
def storedBytes (s : State) : Instr → List Byte
  | .ldB X => bcdDigits (s.reg X)
  | .ldMemVx X => s.regsUpTo X
  | .cls | .ret | .sys _ | .jp _ | .call _ | .seImm _ _ | .sneImm _ _ | .seReg _ _ | .ldImm _ _ | .addImm _ _ => []
  | .ldReg _ _ | .bitOr _ _ | .bitAnd _ _ | .bitXor _ _ | .addReg _ _ | .sub _ _ | .shr _ _ | .subn _ _ => []
  | .shl _ _ | .sneReg _ _ | .ldI _ | .jpV0 _ | .rnd _ _ | .drw _ _ _ | .skp _ | .sknp _ | .ldVxDt _ => []
  | .ldVxK _ | .ldDtVx _ | .ldStVx _ | .addI _ | .ldF _ | .ldVxMem _ => []

/-- The instructions whose handler may return Skip (40_control_flow.md R109). -/
def isSkip : Instr → Bool
  | .seImm _ _ | .sneImm _ _ | .seReg _ _ | .sneReg _ _ | .skp _ | .sknp _ => true
  | .cls | .ret | .sys _ | .jp _ | .call _ | .ldImm _ _ | .addImm _ _ | .ldReg _ _ | .bitOr _ _ | .bitAnd _ _ => false
  | .bitXor _ _ | .addReg _ _ | .sub _ _ | .shr _ _ | .subn _ _ | .shl _ _ | .ldI _ | .jpV0 _ | .rnd _ _ => false
  | .drw _ _ _ | .ldVxDt _ | .ldVxK _ | .ldDtVx _ | .ldStVx _ | .addI _ | .ldF _ | .ldB _ | .ldMemVx _ => false
  | .ldVxMem _ => false

/-- The instructions whose handler returns Jump (40_control_flow.md R100 to R103, R108). -/
def isJump : Instr → Bool
  | .ret | .sys _ | .jp _ | .call _ | .jpV0 _ => true
  | .cls | .seImm _ _ | .sneImm _ _ | .seReg _ _ | .sneReg _ _ | .skp _ | .sknp _ | .ldImm _ _ | .addImm _ _ => false
  | .ldReg _ _ | .bitOr _ _ | .bitAnd _ _ | .bitXor _ _ | .addReg _ _ | .sub _ _ | .shr _ _ | .subn _ _ => false
  | .shl _ _ | .ldI _ | .rnd _ _ | .drw _ _ _ | .ldVxDt _ | .ldVxK _ | .ldDtVx _ | .ldStVx _ | .addI _ => false
  | .ldF _ | .ldB _ | .ldMemVx _ | .ldVxMem _ => false

end Sys2Proof.Machine
end

