-- ==== Sys2Proof/Certificates/Slice0/Obligations.lean ====
section
/-! DEFINITION. The statements about the machine, one definition each. The rules R<n> are those of spec/. -/

open Sys2Proof Sys2Proof.Machine

/-! ### Fetch, split, decode (30_encoding.md) -/

/-- R74: the four nibbles are bits 15..12, 11..8, 7..4, 3..0 of the word, with the worked example 80 14. -/
def Obligations.NibblesSplitTheWord : Prop :=
  (∀ w : Word, (nibble1 w).toNat = w.toNat / 4096 ∧ (nibble2 w).toNat = w.toNat / 256 % 16 ∧
    (nibble3 w).toNat = w.toNat / 16 % 16 ∧ (nibble4 w).toNat = w.toNat % 16) ∧
  nibble1 0x8014#16 = 8#4 ∧ nibble2 0x8014#16 = 0#4 ∧ nibble3 0x8014#16 = 1#4 ∧ nibble4 0x8014#16 = 4#4

/-- R76, R77, R79: absoluteAddress, immediate and registerIndex as the AddressDecoder computes them. -/
def Obligations.OperandsAreAssembledFromNibbles : Prop :=
  (∀ n1 n2 n3 : Nibble, (absoluteAddress n1 n2 n3).toNat = n1.toNat * 256 + n2.toNat * 16 + n3.toNat) ∧
  absoluteAddress 2#4 0#4 4#4 = 0x204#12 ∧
  (∀ n1 n2 : Nibble, (immediate n1 n2).toNat = n1.toNat * 16 + n2.toNat) ∧ immediate 0#4 5#4 = 5#8 ∧
  (∀ n : Nibble, (registerIndex n).val = n.toNat)

/-- Decoding what the encoder gives a well-formed instruction gives it back, with every operand at every value, as a word
and as the two bytes memory holds, under either SYS_JUMP (R83, R90: the patterns are the spec's own general knowledge). -/
def Obligations.DecodeOfEncodeGivesInstruction : Prop :=
  ∀ (sj : Bool) (i : Instr), i.wf sj = true →
    decode sj (encode i) = .ok i ∧ ∀ rest : List Byte, decodeBytes sj (encodeBytes i ++ rest) = .ok (i, rest)

/-- Every word that decodes is the encoding of the instruction it decodes to, and that instruction is well formed: no bit
of a matched word is ignored (R89, R94; D13). The fault record's opcode rests on it (notes/assumptions/7.md). -/
def Obligations.EncodeOfDecodeGivesWord : Prop :=
  ∀ (sj : Bool) (w : Word) (i : Instr), decode sj w = .ok i → encode i = w ∧ i.wf sj = true

/-- R89: the unmatched words, in terms of the first nibble, the last nibble and the low byte (derived by the spec). -/
def Obligations.UnmatchedWordsAreExactlyTheListed : Prop :=
  ∀ (sj : Bool) (w : Word), decode sj w = .error .unmatched ↔
    ((w.toNat / 4096 = 0x5 ∨ w.toNat / 4096 = 0x9) ∧ w.toNat % 16 ≠ 0) ∨
    (w.toNat / 4096 = 0x8 ∧ w.toNat % 16 ∈ [0x8, 0x9, 0xA, 0xB, 0xC, 0xD, 0xF]) ∨
    (w.toNat / 4096 = 0xE ∧ w.toNat % 256 ∉ [0x9E, 0xA1]) ∨
    (w.toNat / 4096 = 0xF ∧ w.toNat % 256 ∉ [0x07, 0x0A, 0x15, 0x18, 0x1E, 0x29, 0x33, 0x55, 0x65]) ∨
    (sj = false ∧ w.toNat / 4096 = 0x0 ∧ w.toNat ≠ 0x00E0 ∧ w.toNat ≠ 0x00EE)

/-- The rows of formats NNN and XKK: the word, as a number, of every operand value (R81, R90; SYS by R93, D6). -/
def Obligations.AddressAndImmediateRowsHaveTheirPatterns : Prop :=
  (∀ NNN : Addr, NNN.toNat ≠ 0x0E0 → NNN.toNat ≠ 0x0EE →
    decode true (BitVec.ofNat 16 NNN.toNat) = .ok (.sys NNN) ∧ encode (.sys NNN) = BitVec.ofNat 16 NNN.toNat) ∧
  (∀ NNN : Addr, Encodes (0x1000 + NNN.toNat) (.jp NNN) ∧ Encodes (0x2000 + NNN.toNat) (.call NNN) ∧
    Encodes (0xA000 + NNN.toNat) (.ldI NNN) ∧ Encodes (0xB000 + NNN.toNat) (.jpV0 NNN)) ∧
  (∀ (X : Reg) (KK : Byte),
    Encodes (0x3000 + 256 * X.val + KK.toNat) (.seImm X KK) ∧ Encodes (0x4000 + 256 * X.val + KK.toNat) (.sneImm X KK) ∧
    Encodes (0x6000 + 256 * X.val + KK.toNat) (.ldImm X KK) ∧ Encodes (0x7000 + 256 * X.val + KK.toNat) (.addImm X KK) ∧
    Encodes (0xC000 + 256 * X.val + KK.toNat) (.rnd X KK))

/-- The rows of formats FIXED, XYF, XYN and XFF: the word, as a number, of every operand value (R81, R90). -/
def Obligations.RegisterAndFixedRowsHaveTheirPatterns : Prop :=
  Encodes 0x00E0 .cls ∧ Encodes 0x00EE .ret ∧
  (∀ X Y : Reg,
    Encodes (0x5000 + 256 * X.val + 16 * Y.val) (.seReg X Y) ∧ Encodes (0x9000 + 256 * X.val + 16 * Y.val) (.sneReg X Y) ∧
    Encodes (0x8000 + 256 * X.val + 16 * Y.val) (.ldReg X Y) ∧ Encodes (0x8001 + 256 * X.val + 16 * Y.val) (.bitOr X Y) ∧
    Encodes (0x8002 + 256 * X.val + 16 * Y.val) (.bitAnd X Y) ∧ Encodes (0x8003 + 256 * X.val + 16 * Y.val) (.bitXor X Y) ∧
    Encodes (0x8004 + 256 * X.val + 16 * Y.val) (.addReg X Y) ∧ Encodes (0x8005 + 256 * X.val + 16 * Y.val) (.sub X Y) ∧
    Encodes (0x8006 + 256 * X.val + 16 * Y.val) (.shr X Y) ∧ Encodes (0x8007 + 256 * X.val + 16 * Y.val) (.subn X Y) ∧
    Encodes (0x800E + 256 * X.val + 16 * Y.val) (.shl X Y)) ∧
  (∀ (X Y : Reg) (N : Fin 16), Encodes (0xD000 + 256 * X.val + 16 * Y.val + N.val) (.drw X Y N)) ∧
  (∀ X : Reg,
    Encodes (0xE09E + 256 * X.val) (.skp X) ∧ Encodes (0xE0A1 + 256 * X.val) (.sknp X) ∧
    Encodes (0xF007 + 256 * X.val) (.ldVxDt X) ∧ Encodes (0xF00A + 256 * X.val) (.ldVxK X) ∧
    Encodes (0xF015 + 256 * X.val) (.ldDtVx X) ∧ Encodes (0xF018 + 256 * X.val) (.ldStVx X) ∧
    Encodes (0xF01E + 256 * X.val) (.addI X) ∧ Encodes (0xF029 + 256 * X.val) (.ldF X) ∧
    Encodes (0xF033 + 256 * X.val) (.ldB X) ∧ Encodes (0xF055 + 256 * X.val) (.ldMemVx X) ∧
    Encodes (0xF065 + 256 * X.val) (.ldVxMem X))

/-- A sanity statement: the four words the source shows (R88), one more word of each other family, and the precedence of
CLS and RET over SYS (R93). -/
def Obligations.WrittenOutWordsDecode : Prop :=
  (∀ sj : Bool,
    decodeBytes sj [0x60#8, 0x05#8] = .ok (.ldImm 0 5#8, []) ∧ decodeBytes sj [0x61#8, 0x03#8] = .ok (.ldImm 1 3#8, []) ∧
    decodeBytes sj [0x80#8, 0x14#8] = .ok (.addReg 0 1, []) ∧ decodeBytes sj [0x12#8, 0x04#8] = .ok (.jp 0x204#12, []) ∧
    decodeBytes sj [0xF3#8, 0x55#8] = .ok (.ldMemVx 3, []) ∧ decodeBytes sj [0xD1#8, 0x25#8] = .ok (.drw 1 2 5, []) ∧
    decodeBytes sj [0x00#8, 0xE0#8] = .ok (.cls, []) ∧ decodeBytes sj [0x00#8, 0xEE#8] = .ok (.ret, [])) ∧
  decodeBytes true [0x01#8, 0x23#8] = .ok (.sys 0x123#12, []) ∧ decodeBytes false [0x01#8, 0x23#8] = .error .unmatched

/-! ### The step -/

/-- A RUNNING engine whose two bytes at pc, the first the high one, decode to i executes i; nothing is added around exec
(R70, R73; the byte order is the spec's decision D1). -/
def Obligations.StepExecutesTheDecodedInstruction : Prop :=
  ∀ (s : State) (i : Instr), s.engine = .running → s.pc.toNat + 1 ≤ 4095 →
    decode s.cfg.sysJump
      (BitVec.ofNat 16 ((s.readByte s.pc.toNat).toNat * 256 + (s.readByte (s.pc.toNat + 1)).toNat)) = .ok i →
    step s = exec i s

/-- R71: a step in AWAITING_KEY(X) changes nothing and is no error. -/
def Obligations.StepWhileAwaitingKeyChangesNothing : Prop :=
  ∀ (s : State) (X : Reg), s.engine = .awaitingKey X → step s = .next s

/-- A fetch that reaches past address 4095 enters FAULTED(OutOfBoundsAddress) with no opcode and changes nothing else (R73,
R212; the missing opcode is the spec's decision D21). -/
def Obligations.FetchOutsideMemoryFaults : Prop :=
  ∀ s : State, s.engine = .running → s.pc.toNat + 1 > 4095 →
    ∃ t, step s = .next t ∧ EntersFault .outOfBoundsAddress none s t

/-- R84: an unmatched word raises UnmatchedOpcode with the current pc and the word, and pc does not move. -/
def Obligations.UnmatchedWordFaults : Prop :=
  ∀ (s : State) (w : Word), s.engine = .running → s.fetch = some w → decode s.cfg.sysJump w = .error .unmatched →
    ∃ t, step s = .next t ∧ EntersFault .unmatchedOpcode (some w) s t

/-- From every state a step answers a next state: the machine's own faults are states, and no instruction is refused (R36,
R71, R72, R212; that a fault is a next state is notes/assumptions/6.md). -/
def Obligations.EveryStepAnswersANextState : Prop := ∀ s : State, ∃ t, step s = .next t

/-- A step that ends in FAULTED has changed the engine state alone, and its record holds the pc and the word fetched there,
no word exactly if the fetch failed: faults are precise and all-or-nothing (R87, R212 to R214; D4, D21). -/
def Obligations.FaultingStepChangesOnlyTheEngine : Prop :=
  ∀ (s t : State) (r : FaultRecord), s.engine = .running → step s = .next t → t.engine = .faulted r →
    EntersFault r.kind s.fetch s t

/-- Which fault a step of a RUNNING engine raises, and that nothing else raises one (R211, R217; D3, D4, D23). -/
def Obligations.ExecutionFaultsHaveExactlyTheListedCauses : Prop :=
  ∀ s t : State, s.engine = .running → step s = .next t →
    ((∃ r, t.engine = .faulted r ∧ r.kind = .unmatchedOpcode) ↔
      ∃ w, s.fetch = some w ∧ decode s.cfg.sysJump w = .error .unmatched) ∧
    ((∃ r, t.engine = .faulted r ∧ r.kind = .stackOverflow) ↔ s.sp.val = 16 ∧ ∃ NNN, InstrAt s (.call NNN)) ∧
    ((∃ r, t.engine = .faulted r ∧ r.kind = .stackUnderflow) ↔ s.sp.val = 0 ∧ InstrAt s .ret) ∧
    ((∃ r, t.engine = .faulted r ∧ r.kind = .outOfBoundsAddress) ↔
      s.pc.toNat + 1 > 4095 ∨
      (∃ (X Y : Reg) (N : Fin 16), InstrAt s (.drw X Y N) ∧ 1 ≤ N.val ∧ s.I.toNat + N.val - 1 > 4095) ∨
      (∃ X : Reg, InstrAt s (.ldB X) ∧ s.I.toNat + 2 > 4095) ∨
      (∃ X : Reg, InstrAt s (.ldMemVx X) ∧ s.I.toNat + X.val > 4095) ∨
      (∃ X : Reg, InstrAt s (.ldVxMem X) ∧ s.I.toNat + X.val > 4095))

/-- R87: when a handler raises a fault, pc keeps the address of the faulting instruction, which the record reports. -/
def Obligations.FaultKeepsThePc : Prop :=
  ∀ (i : Instr) (s t : State) (r : FaultRecord), s.engine = .running → exec i s = .next t → t.engine = .faulted r →
    t.pc = s.pc ∧ r.pc = s.pc

/-- The control-flow effects, over all instructions: a fault, or Suspend for LD_VX_K alone, or Next, Skip for the skips
alone, or Jump for the jumps alone, its target below 4351 but for RET (R85, R86, R109; D3). -/
def Obligations.PcMovesOnlyByTheControlEffect : Prop :=
  ∀ (i : Instr) (s t : State), exec i s = .next t →
    (∃ k, EntersFault k (some (encode i)) s t) ∨
    (∃ X, i = .ldVxK X ∧ t.pc = s.pc ∧ t.engine = .awaitingKey X) ∨
    (t.engine = s.engine ∧ isJump i = false ∧ (∀ X, i ≠ .ldVxK X) ∧
      (t.pc = s.pc + 2#16 ∨ isSkip i = true ∧ t.pc = s.pc + 4#16)) ∨
    (t.engine = s.engine ∧ isJump i = true ∧ (i = .ret ∨ t.pc.toNat ≤ 4350))

/-- The frame of every instruction: what its row of mayChange does not name is unchanged; every byte of memory outside the
bytes it stores reads as before, which are 3 from I for LD_B, X + 1 from I for LD_MEM_VX and none for every other; every
stack slot but the one sp names is as before (R21, R23, R26, R27, R31, R32, R54). The registers one by one are in
RegistersAreWrittenOnlyByTheListedInstructions. -/
def Obligations.EveryInstructionKeepsItsFrame : Prop :=
  ∀ (i : Instr) (s t : State), exec i s = .next t →
    KeepsAllBut (mayChange i) s t ∧
    (∀ a : Nat, a < s.I.toNat ∨ s.I.toNat + (storedBytes s i).length ≤ a → t.readByte a = s.readByte a) ∧
    (∀ k : Fin 16, k.val ≠ s.sp.val → t.stack[k.val] = s.stack[k.val])

/-- A general register changes only by an instruction that 10_state.md R21 lists for it; x[15] as a flag only by ADD_REG,
SUB, SUBN, SHR, SHL and DRW (R21, R22; D10). -/
def Obligations.RegistersAreWrittenOnlyByTheListedInstructions : Prop :=
  ∀ (i : Instr) (s t : State) (r : Reg), exec i s = .next t → mayWriteReg i r = false → t.reg r = s.reg r

/-! ### Control flow (40_control_flow.md) -/

/-- RET: pop and jump two bytes past the popped address, the slot keeping its value; StackUnderflow when sp = 0 (R100;
slot discipline D12; the pattern 00EE is the spec's general knowledge). -/
def Obligations.RetPopsAndReturnsPastTheCall : Prop :=
  (∀ (s : State) (k : Fin 16), s.sp.val = k.val + 1 →
    ∃ t, exec .ret s = .next t ∧ t.sp.val = k.val ∧ t.pc = s.stack[k.val] + 2#16 ∧ KeepsAllBut [.sp, .pc] s t) ∧
  (∀ s : State, s.sp.val = 0 → ∃ t, exec .ret s = .next t ∧ EntersFault .stackUnderflow (some 0x00EE#16) s t)

/-- R102: JP, word 1NNN, jumps to NNN. -/
def Obligations.JpJumpsToItsAddress : Prop :=
  ∀ NNN : Addr, Encodes (0x1000 + NNN.toNat) (.jp NNN) ∧
    ∀ s : State, ∃ t, exec (.jp NNN) s = .next t ∧ JumpsTo NNN.toNat s t

/-- SYS: the legacy jump when SYS_JUMP is true, UnmatchedOpcode when it is false (R101; D6). It speaks of exec on every SYS
term; what exec does with the terms no word decodes to (NNN = 0E0 or 0EE, and SYS under SYS_JUMP false, R93) is the model's
inference and reached by no step: notes/assumptions/16.md. -/
def Obligations.SysIsTheLegacyJump : Prop :=
  ∀ (NNN : Addr) (s : State),
    (s.cfg.sysJump = true → ∃ t, exec (.sys NNN) s = .next t ∧ JumpsTo NNN.toNat s t) ∧
    (s.cfg.sysJump = false →
      ∃ t, exec (.sys NNN) s = .next t ∧ EntersFault .unmatchedOpcode (some (BitVec.ofNat 16 NNN.toNat)) s t)

/-- CALL: stack[sp] <- pc, sp + 1, jump to NNN, every other slot kept; StackOverflow when sp = 16 (R103; D12; the pattern
2NNN is the spec's general knowledge). -/
def Obligations.CallPushesItsOwnAddress : Prop :=
  (∀ (NNN : Addr) (s : State) (k : Fin 16), s.sp.val = k.val →
    ∃ t, exec (.call NNN) s = .next t ∧ t.stack[k.val] = s.pc ∧ (∀ j : Fin 16, j ≠ k → t.stack[j.val] = s.stack[j.val]) ∧
      t.sp.val = k.val + 1 ∧ t.pc.toNat = NNN.toNat ∧ KeepsAllBut [.stack, .sp, .pc] s t) ∧
  (∀ (NNN : Addr) (s : State), s.sp.val = 16 →
    ∃ t, exec (.call NNN) s = .next t ∧
      EntersFault .stackOverflow (some (BitVec.ofNat 16 (0x2000 + NNN.toNat))) s t)

/-- SE_IMM and SNE_IMM skip on x[X] = KK and x[X] ≠ KK and write nothing but pc (R104, R105; the patterns are the spec's
general knowledge). -/
def Obligations.ImmediateSkipsCompareTheRegister : Prop :=
  ∀ (X : Reg) (KK : Byte) (s : State),
    (∃ t, exec (.seImm X KK) s = .next t ∧ SkipsIf (s.reg X = KK) s t) ∧
    (∃ t, exec (.sneImm X KK) s = .next t ∧ SkipsIf (s.reg X ≠ KK) s t)

/-- SE_REG and SNE_REG skip on x[X] = x[Y] and x[X] ≠ x[Y] and write nothing but pc (R106, R107; D13). -/
def Obligations.RegisterSkipsCompareTheRegisters : Prop :=
  ∀ (X Y : Reg) (s : State),
    (∃ t, exec (.seReg X Y) s = .next t ∧ SkipsIf (s.reg X = s.reg Y) s t) ∧
    (∃ t, exec (.sneReg X Y) s = .next t ∧ SkipsIf (s.reg X ≠ s.reg Y) s t)

/-- JP_V0 jumps to NNN + x[0], always register 0, the sum not reduced (R108; D3). -/
def Obligations.JpV0JumpsToTheExactSum : Prop :=
  ∀ (NNN : Addr) (s : State), ∃ t, exec (.jpV0 NNN) s = .next t ∧ JumpsTo (NNN.toNat + (s.reg 0).toNat) s t

/-- R27: sp is in 0..16, zero at reset, and counts the occupied slots: a CALL below 16 adds one, a RET above 0 takes one;
CALL at 16 raises StackOverflow and RET at 0 raises StackUnderflow; no other instruction reads sp (its value makes no
difference) or writes it. -/
def Obligations.StackPointerCountsSlotsAndOnlyCallAndRetUseIt : Prop :=
  State.reset.sp.val = 0 ∧ (∀ s : State, s.sp.val ≤ 16) ∧
  (∀ (NNN : Addr) (s : State), s.sp.val < 16 → ∃ t, exec (.call NNN) s = .next t ∧ t.sp.val = s.sp.val + 1) ∧
  (∀ s : State, 0 < s.sp.val → ∃ t, exec .ret s = .next t ∧ t.sp.val + 1 = s.sp.val) ∧
  (∀ (NNN : Addr) (s : State), s.sp.val = 16 → ∃ t w, exec (.call NNN) s = .next t ∧ EntersFault .stackOverflow w s t) ∧
  (∀ s : State, s.sp.val = 0 → ∃ t w, exec .ret s = .next t ∧ EntersFault .stackUnderflow w s t) ∧
  (∀ (i : Instr) (s : State) (v : Fin 17), i ≠ .ret → (∀ NNN, i ≠ .call NNN) →
    ∃ t, exec i s = .next t ∧ t.sp = s.sp ∧ exec i { s with sp := v } = .next { t with sp := v })

/-! ### Loads, arithmetic, logic, shifts (41_alu.md) -/

/-- R133: LD_IMM, word 6XKK, sets the target register to exactly KK. -/
def Obligations.LdImmSetsTheRegister : Prop :=
  ∀ (X : Reg) (KK : Byte), Encodes (0x6000 + 256 * X.val + KK.toNat) (.ldImm X KK) ∧
    ∀ s : State, ∃ t, exec (.ldImm X KK) s = .next t ∧ WritesOnlyReg X KK s t

/-- ADD_IMM: (x[X] + KK) mod 256 and no flag side effect (R134; the pattern 7XKK is the spec's general knowledge). -/
def Obligations.AddImmAddsWithoutFlag : Prop :=
  ∀ (X : Reg) (KK : Byte) (s : State),
    ∃ t, exec (.addImm X KK) s = .next t ∧
      WritesOnlyReg X (BitVec.ofNat 8 (((s.reg X).toNat + KK.toNat) % 256)) s t

/-- LD_REG, OR, AND, XOR write x[X] and no flag (R135 to R138; no flag by D10). -/
def Obligations.CopyAndBitwiseWriteOnlyTheDestination : Prop :=
  ∀ (X Y : Reg) (s : State),
    (∃ t, exec (.ldReg X Y) s = .next t ∧ WritesOnlyReg X (s.reg Y) s t) ∧
    (∃ t, exec (.bitOr X Y) s = .next t ∧ WritesOnlyReg X (s.reg X ||| s.reg Y) s t) ∧
    (∃ t, exec (.bitAnd X Y) s = .next t ∧ WritesOnlyReg X (s.reg X &&& s.reg Y) s t) ∧
    (∃ t, exec (.bitXor X Y) s = .next t ∧ WritesOnlyReg X (s.reg X ^^^ s.reg Y) s t)

/-- ADD_REG, word 8XY4: the sum mod 256 and the carry, 1 iff the exact sum exceeds 255 (R139); where X is 15 the write
FLAG_ORDER puts last stays (R132; D8; the parameter is held as in notes/assumptions/1.md). -/
def Obligations.AddRegAddsWithCarryFlag : Prop :=
  ∀ X Y : Reg, Encodes (0x8004 + 256 * X.val + 16 * Y.val) (.addReg X Y) ∧
    ∀ s : State, ∃ t, exec (.addReg X Y) s = .next t ∧
      WritesResultAndFlag X (((s.reg X).toNat + (s.reg Y).toNat) % 256)
        (if (s.reg X).toNat + (s.reg Y).toNat > 255 then 1 else 0) s t

/-- SUB and SUBN: the difference mod 256, X minus Y and Y minus X, and the no-borrow flag, 1 iff minuend ≥ subtrahend, in
x[15] (R140, R141; C4; which word is which is the spec's general knowledge). -/
def Obligations.SubtractsSetTheNoBorrowFlag : Prop :=
  ∀ (X Y : Reg) (s : State),
    (∃ t, exec (.sub X Y) s = .next t ∧
      WritesResultAndFlag X (((s.reg X).toNat + 256 - (s.reg Y).toNat) % 256)
        (if (s.reg X).toNat ≥ (s.reg Y).toNat then 1 else 0) s t) ∧
    (∃ t, exec (.subn X Y) s = .next t ∧
      WritesResultAndFlag X (((s.reg Y).toNat + 256 - (s.reg X).toNat) % 256)
        (if (s.reg Y).toNat ≥ (s.reg X).toNat then 1 else 0) s t)

/-- SHR and SHL shift the source SHIFT_SOURCE names by one into x[X]; the flag is the bit shifted out (R142 to R144; D7). -/
def Obligations.ShiftsMoveOneBitIntoTheFlag : Prop :=
  ∀ (X Y : Reg) (s : State) (v : Byte),
    (s.cfg.shiftSource = .x → v = s.reg X) → (s.cfg.shiftSource = .y → v = s.reg Y) →
    (∃ t, exec (.shr X Y) s = .next t ∧ WritesResultAndFlag X (v.toNat / 2) (v.toNat % 2) s t) ∧
    (∃ t, exec (.shl X Y) s = .next t ∧ WritesResultAndFlag X (v.toNat * 2 % 256) (v.toNat / 128) s t)

/-! ### Index register and memory (42_index_memory.md) -/

/-- LD_I, ADD_I, LD_F write I alone: NNN; (I + x[X]) mod 65536, no fault and no flag; 5 times the low nibble of x[X] (R160
to R162; D3, D11, D30). -/
def Obligations.IndexInstructionsWriteOnlyI : Prop :=
  (∀ (NNN : Addr) (s : State),
    ∃ t, exec (.ldI NNN) s = .next t ∧ t.I.toNat = NNN.toNat ∧ t.pc = s.pc + 2#16 ∧ KeepsAllBut [.I, .pc] s t) ∧
  (∀ (X : Reg) (s : State),
    ∃ t, exec (.addI X) s = .next t ∧ t.I.toNat = (s.I.toNat + (s.reg X).toNat) % 65536 ∧ t.pc = s.pc + 2#16 ∧
      KeepsAllBut [.I, .pc] s t) ∧
  (∀ (X : Reg) (s : State),
    ∃ t, exec (.ldF X) s = .next t ∧ t.I.toNat = 5 * ((s.reg X).toNat % 16) ∧ t.pc = s.pc + 2#16 ∧
      KeepsAllBut [.I, .pc] s t)

/-- LD_B: hundreds, tens, ones of x[X] at I, I+1, I+2 and every other byte unchanged; if I + 2 > 4095, OutOfBoundsAddress
with nothing written (R163; D4). -/
def Obligations.LdBStoresTheThreeDigits : Prop :=
  (∀ (X : Reg) (s : State), Memory.wf s.cfg.glyphs s.mem → s.I.toNat + 2 ≤ 4095 →
    ∃ t, exec (.ldB X) s = .next t ∧
      (t.readByte s.I.toNat).toNat = (s.reg X).toNat / 100 ∧
      (t.readByte (s.I.toNat + 1)).toNat = (s.reg X).toNat / 10 % 10 ∧
      (t.readByte (s.I.toNat + 2)).toNat = (s.reg X).toNat % 10 ∧
      (∀ a : Nat, a < s.I.toNat ∨ s.I.toNat + 2 < a → t.readByte a = s.readByte a) ∧
      t.pc = s.pc + 2#16 ∧ KeepsAllBut [.memory, .pc] s t) ∧
  (∀ (X : Reg) (s : State), s.I.toNat + 2 > 4095 →
    ∃ t, exec (.ldB X) s = .next t ∧
      EntersFault .outOfBoundsAddress (some (BitVec.ofNat 16 (0xF033 + 256 * X.val))) s t)

/-- LD_MEM_VX: x[0] .. x[X] at I .. I+X in ascending order, every other byte and I unchanged; if I + X > 4095,
OutOfBoundsAddress with nothing written (R164; D4, D9). -/
def Obligations.LdMemVxDumpsTheRegisters : Prop :=
  (∀ (X : Reg) (s : State), Memory.wf s.cfg.glyphs s.mem → s.I.toNat + X.val ≤ 4095 →
    ∃ t, exec (.ldMemVx X) s = .next t ∧
      (∀ r : Reg, r ≤ X → t.readByte (s.I.toNat + r.val) = s.reg r) ∧
      (∀ a : Nat, a < s.I.toNat ∨ s.I.toNat + X.val < a → t.readByte a = s.readByte a) ∧
      t.pc = s.pc + 2#16 ∧ KeepsAllBut [.memory, .pc] s t) ∧
  (∀ (X : Reg) (s : State), s.I.toNat + X.val > 4095 →
    ∃ t, exec (.ldMemVx X) s = .next t ∧
      EntersFault .outOfBoundsAddress (some (BitVec.ofNat 16 (0xF055 + 256 * X.val))) s t)

/-- LD_VX_MEM: x[0] .. x[X] from I .. I+X, the registers above X, memory and I unchanged; if I + X > 4095,
OutOfBoundsAddress with no register written (R165; D4, D9). -/
def Obligations.LdVxMemLoadsTheRegisters : Prop :=
  (∀ (X : Reg) (s : State), s.I.toNat + X.val ≤ 4095 →
    ∃ t, exec (.ldVxMem X) s = .next t ∧
      (∀ r : Reg, r ≤ X → t.reg r = s.readByte (s.I.toNat + r.val)) ∧
      (∀ r : Reg, X < r → t.reg r = s.reg r) ∧ t.pc = s.pc + 2#16 ∧ KeepsAllBut [.regs, .pc] s t) ∧
  (∀ (X : Reg) (s : State), s.I.toNat + X.val > 4095 →
    ∃ t, exec (.ldVxMem X) s = .next t ∧
      EntersFault .outOfBoundsAddress (some (BitVec.ofNat 16 (0xF065 + 256 * X.val))) s t)

/-! ### Framebuffer, random, keypad, timers (43_io.md) -/

/-- CLS turns every pixel off and changes nothing else (R180; the pattern 00E0 is the spec's general knowledge). -/
def Obligations.ClsTurnsEveryPixelOff : Prop :=
  ∀ s : State, ∃ t, exec .cls s = .next t ∧ (∀ p : Pixel, t.fb.lit p = false) ∧ t.pc = s.pc + 2#16 ∧
    KeepsAllBut [.fb, .pc] s t

/-- RND: x[X] is the drawn byte AND KK, whichever byte is drawn: the one the host lined up, which is then used up, or the
next free value (R181, R34; D17; that a draw is held this way is the model's choice, notes/assumptions/4.md). -/
def Obligations.RndMasksTheDrawnByte : Prop :=
  ∀ (X : Reg) (KK : Byte) (s : State),
    (∀ (d : Byte) (rest : List Byte), s.randomIn = d :: rest →
      ∃ t, exec (.rnd X KK) s = .next t ∧ t.reg X = d &&& KK ∧ (∀ r : Reg, r ≠ X → t.reg r = s.reg r) ∧
        t.randomIn = rest ∧ t.randomCount = s.randomCount ∧ t.pc = s.pc + 2#16 ∧
        KeepsAllBut [.regs, .random, .pc] s t) ∧
    (s.randomIn = [] →
      ∃ t, exec (.rnd X KK) s = .next t ∧ t.reg X = Config.randomByte s.randomCount &&& KK ∧
        (∀ r : Reg, r ≠ X → t.reg r = s.reg r) ∧ t.randomIn = [] ∧ t.randomCount = s.randomCount + 1 ∧
        t.pc = s.pc + 2#16 ∧ KeepsAllBut [.regs, .random, .pc] s t)

/-- DRW: each pixel is flipped once for every set sprite bit that falls on it, with wrap on both axes; VF is 1 iff some
pixel went from set to clear, that is, a set bit falls on a pixel that was on or that another set bit falls on too; N = 0
never faults; if N ≥ 1 and I + N - 1 > 4095, OutOfBoundsAddress with no pixel and no flag changed (R182, R183; D4, D14). -/
def Obligations.DrwXorsTheSpriteAndReportsCollision : Prop :=
  (∀ (X Y : Reg) (N : Fin 16) (s : State), Framebuffer.wf s.cfg.fbW s.cfg.fbH s.fb →
    (N.val = 0 ∨ s.I.toNat + N.val - 1 ≤ 4095) →
    ∃ t, exec (.drw X Y N) s = .next t ∧
      (∀ p : Pixel, t.fb.lit p =
        (s.fb.lit p ^^ decide (SpriteHits s (s.reg X).toNat (s.reg Y).toNat N.val p % 2 = 1))) ∧
      ((t.reg 15).toNat = 1 ∨ (t.reg 15).toNat = 0) ∧
      ((t.reg 15).toNat = 1 ↔
        ∃ p : Pixel, 1 ≤ SpriteHits s (s.reg X).toNat (s.reg Y).toNat N.val p ∧
          (s.fb.lit p = true ∨ 2 ≤ SpriteHits s (s.reg X).toNat (s.reg Y).toNat N.val p)) ∧
      (∀ r : Reg, r ≠ 15 → t.reg r = s.reg r) ∧ t.pc = s.pc + 2#16 ∧ KeepsAllBut [.fb, .regs, .pc] s t) ∧
  (∀ (X Y : Reg) (N : Fin 16) (s : State), 1 ≤ N.val → s.I.toNat + N.val - 1 > 4095 →
    ∃ t, exec (.drw X Y N) s = .next t ∧
      EntersFault .outOfBoundsAddress (some (BitVec.ofNat 16 (0xD000 + 256 * X.val + 16 * Y.val + N.val))) s t)

/-- SKP and SKNP skip on the key named by the low nibble of x[X] being down and up (R184, R185, R33; D18). -/
def Obligations.KeySkipsTestTheLowNibbleKey : Prop :=
  ∀ (X : Reg) (s : State),
    (∃ t, exec (.skp X) s = .next t ∧ SkipsIf (s.keys.getLsbD ((s.reg X).toNat % 16) = true) s t) ∧
    (∃ t, exec (.sknp X) s = .next t ∧ SkipsIf (s.keys.getLsbD ((s.reg X).toNat % 16) = false) s t)

/-- LD_VX_DT reads DT; LD_DT_VX and LD_ST_VX write DT and ST; nothing else changes (R186, R190, R191; the patterns are the
spec's general knowledge). -/
def Obligations.TimerInstructionsMoveOneByte : Prop :=
  ∀ (X : Reg) (s : State),
    (∃ t, exec (.ldVxDt X) s = .next t ∧ WritesOnlyReg X s.DT s t) ∧
    (∃ t, exec (.ldDtVx X) s = .next t ∧ t.DT = s.reg X ∧ t.pc = s.pc + 2#16 ∧ KeepsAllBut [.DT, .pc] s t) ∧
    (∃ t, exec (.ldStVx X) s = .next t ∧ t.ST = s.reg X ∧ t.pc = s.pc + 2#16 ∧ KeepsAllBut [.ST, .pc] s t)

/-- LD_VX_K suspends: AWAITING_KEY(X), with x[X], pc and everything else unchanged, whatever keys are down (R187; D19). -/
def Obligations.LdVxKSuspendsTheEngine : Prop :=
  ∀ (X : Reg) (s : State), ∃ t, exec (.ldVxK X) s = .next t ∧ t.engine = .awaitingKey X ∧ KeepsAllBut [.engine] s t

/-! ### Host events -/

/-- R188: a key press in AWAITING_KEY(X) writes the key to x[X], adds 2 to pc and makes the engine RUNNING. -/
def Obligations.KeyPressCompletesTheAwait : Prop :=
  ∀ (s : State) (X : Reg) (k : Key), s.engine = .awaitingKey X →
    (s.keyPress k).reg X = BitVec.ofNat 8 k.val ∧ (∀ r : Reg, r ≠ X → (s.keyPress k).reg r = s.reg r) ∧
    (s.keyPress k).pc = s.pc + 2#16 ∧ (s.keyPress k).engine = .running ∧
    KeepsAllBut [.regs, .pc, .engine] s (s.keyPress k)

/-- A key press in any other engine state changes nothing and is not queued (R192; D19). -/
def Obligations.KeyPressOutsideTheAwaitIsDropped : Prop :=
  ∀ (s : State) (k : Key), (∀ X, s.engine ≠ .awaitingKey X) → s.keyPress k = s

/-- A tick takes one from each timer that is above 0 and changes nothing else, whatever the engine state (R222; when ticks
come is the host's, D31). -/
def Obligations.TickCountsBothTimersDown : Prop :=
  ∀ s : State,
    (s.DT.toNat > 0 → s.tick.DT.toNat = s.DT.toNat - 1) ∧ (s.DT.toNat = 0 → s.tick.DT.toNat = 0) ∧
    (s.ST.toNat > 0 → s.tick.ST.toNat = s.ST.toNat - 1) ∧ (s.ST.toNat = 0 → s.tick.ST.toNat = 0) ∧
    KeepsAllBut [.DT, .ST] s s.tick

/-- init() sets every piece of CORE state to its value of R37, from any state; reset() is init(); State.reset is such a
state (R37, R240, R242; D5, D24, D36). That init keeps the configuration and the key-down vector is the model's choice,
notes/assumptions/9.md; that State.reset has the reference configuration is notes/assumptions/2.md. -/
def Obligations.InitializationSetsEveryPieceOfState : Prop :=
  (∀ s : State, IsInitial s.initialize ∧ s.hostReset = s.initialize ∧ s.initialize.cfg = s.cfg ∧
    s.initialize.keys = s.keys) ∧
  IsInitial State.reset ∧ State.reset.cfg = Config.reference

/-- load(image): a failing source and an image above 3584 bytes are reported and leave the machine untouched; any other
image is in memory from 512 upward over an otherwise initialized machine (R241, R216; D25). -/
def Obligations.LoadIsAllOrNothing : Prop :=
  ∀ s : State,
    s.load none = (some .loadSourceError, s) ∧
    (∀ image : List Byte, image.length > 3584 → s.load (some image) = (some .loadOverflow, s)) ∧
    (∀ image : List Byte, image.length ≤ 3584 →
      (s.load (some image)).1 = none ∧
      (∀ (k : Nat) (h : k < image.length), (s.load (some image)).2.readByte (512 + k) = image[k]) ∧
      (∀ a : Nat, a < 512 ∨ 512 + image.length ≤ a →
        (s.load (some image)).2.readByte a = s.initialize.readByte a) ∧
      KeepsAllBut [.memory] s.initialize (s.load (some image)).2)

/-- AWAITING_KEY(X) is entered by LD_VX_K, and by nothing else; it is left only by a key press or by host initialization;
and nothing changes over it but the timers by a tick, what the completing key press writes, and the host's own inputs
(R228). That actions are steps and host events is notes/assumptions/8.md; the inputs exempted are the key-down vector, which
R189 lets the host change, and the lined-up random bytes, the model's own field, notes/assumptions/4.md. -/
def Obligations.AwaitingKeyIsEnteredByLdVxKAndLeftByKeyPressOrInit : Prop :=
  (∀ (s : State) (X : Reg), s.engine = .running → InstrAt s (.ldVxK X) →
    ∃ t, act .step s = .next t ∧ t.engine = .awaitingKey X) ∧
  (∀ (a : Action) (s t : State) (X : Reg), act a s = .next t → t.engine = .awaitingKey X → s.engine ≠ t.engine →
    a = .step ∧ s.engine = .running ∧ InstrAt s (.ldVxK X)) ∧
  (∀ (a : Action) (s t : State) (X : Reg), act a s = .next t → s.engine = .awaitingKey X → t.engine ≠ s.engine →
    (∃ k, a = .event (.keyPress k) ∧ KeepsAllBut [.regs, .pc, .engine] s t ∧ ∀ r : Reg, r ≠ X → t.reg r = s.reg r) ∨
    a = .event .init ∨ a = .event .reset ∨ ∃ image, a = .event (.load (some image))) ∧
  (∀ (a : Action) (s t : State) (X : Reg), act a s = .next t → s.engine = .awaitingKey X → t.engine = s.engine →
    KeepsAllBut [.DT, .ST, .keys, .random] s t ∧ (a ≠ .event .tick → t.DT = s.DT ∧ t.ST = s.ST))

/-- FAULTED is absorbing: a step does nothing in it, and only init, reset and a successful load leave it (R72, R215; D20). -/
def Obligations.FaultedEngineIsLeftOnlyByInitialization : Prop :=
  ∀ (s : State) (r : FaultRecord), s.engine = .faulted r →
    step s = .next s ∧
    ∀ e : HostEvent, (s.after e).engine ≠ .faulted r →
      e = .init ∨ e = .reset ∨ ∃ image : List Byte, image.length ≤ 3584 ∧ e = .load (some image)

/-! ### Whole-machine properties -/

/-- Call then return: CALL at pc followed by RET is at pc + 2 with sp, and all but the used slot of the stack, as before
(the property quoted in R103; R100; D12). -/
def Obligations.CallThenReturnRestoresPcAndSp : Prop :=
  ∀ (NNN : Addr) (s : State), s.sp.val < 16 →
    ∃ t u, exec (.call NNN) s = .next t ∧ exec .ret t = .next u ∧ u.pc = s.pc + 2#16 ∧ u.sp = s.sp ∧
      KeepsAllBut [.stack, .pc] s u ∧ ∀ j : Fin 16, j.val ≠ s.sp.val → u.stack[j.val] = s.stack[j.val]

/-- Register dump then register load with the same X reproduces every register, wherever the dump succeeds, whatever is in
the registers in between (the property quoted in R165; R164; D9). -/
def Obligations.DumpThenLoadRestoresTheRegisters : Prop :=
  ∀ (X : Reg) (s : State) (x' : Vector Byte 16), Memory.wf s.cfg.glyphs s.mem → s.I.toNat + X.val ≤ 4095 →
    ∃ t u, exec (.ldMemVx X) s = .next t ∧ exec (.ldVxMem X) { t with x := x' } = .next u ∧
      ∀ r : Reg, r ≤ X → u.reg r = s.reg r

/-- Drawing the same sprite twice at the same place restores the framebuffer; and if the first draw cleared no pixel and the
sprite has a set bit, the second reports a collision (R183's corner case, whose second half the pseudocode of R182 gives
only under that premise: notes/assumptions/15.md). -/
def Obligations.DrawingTwiceRestoresTheFramebuffer : Prop :=
  ∀ (X Y : Reg) (N : Fin 16) (s : State), s.cfg.wf → Framebuffer.wf s.cfg.fbW s.cfg.fbH s.fb →
    (N.val = 0 ∨ s.I.toNat + N.val - 1 ≤ 4095) →
    ∃ t, exec (.drw X Y N) s = .next t ∧ (t.reg X = s.reg X → t.reg Y = s.reg Y →
      ∃ u, exec (.drw X Y N) t = .next u ∧ u.fb = s.fb ∧
        ((t.reg 15).toNat = 0 → (∃ r c : Nat, r < N.val ∧ c < 8 ∧ SpriteBit s r c = true) → (u.reg 15).toNat = 1))

/-- A RUNNING engine at a jump to its own address is at the end of its run: a step changes nothing (R250; D37). -/
def Obligations.FinishedRunStaysWhereItIs : Prop := ∀ s : State, s.finished = true → step s = .next s

/-- No instruction reads ST: a machine that differs in ST alone takes the same step, ST apart, and ST itself differs after
it only as it did before (R32, R191, R221). -/
def Obligations.SoundTimerIsNeverRead : Prop :=
  ∀ (s : State) (v : Byte), ∃ t, step s = .next t ∧
    (step { s with ST := v } = .next t ∨ t.ST = s.ST ∧ step { s with ST := v } = .next { t with ST := v })

/-- A store is seen by the next fetch: a register dump over the word at pc + 2 is what the next step fetches (R61; D29). -/
def Obligations.NextFetchSeesTheStore : Prop :=
  ∀ (X : Reg) (s : State), Memory.wf s.cfg.glyphs s.mem → 1 ≤ X.val → s.I.toNat + X.val ≤ 4095 →
    s.I.toNat = s.pc.toNat + 2 →
    ∃ t, exec (.ldMemVx X) s = .next t ∧
      t.fetch = some (BitVec.ofNat 16 ((s.reg 0).toNat * 256 + (s.reg 1).toNat))

/-! ### The invariant -/

/-- The invariant holds right after initialization, under every legal configuration and all inputs, and in State.reset. -/
def Obligations.InitialStatesMeetTheInvariant : Prop :=
  (∀ (c : Config) (keys : BitVec 16) (randomIn : List Byte) (n : Nat), c.wf → Inv (State.init c keys randomIn n)) ∧
  Inv State.reset

/-- Every step keeps the invariant: canonical memory and framebuffer, pc and stack slots small enough that no pc sum wraps,
and a fault record that is that of the word at pc (R25, R212; D12). -/
def Obligations.EveryStepKeepsTheInvariant : Prop := ∀ s t : State, Inv s → step s = .next t → Inv t

/-- Every host event keeps the invariant (R36; that host events stand beside step is notes/assumptions/8.md). -/
def Obligations.EveryHostEventKeepsTheInvariant : Prop := ∀ (s : State) (e : HostEvent), Inv s → Inv (s.after e)

/-- Every state a machine comes to, under any interleaving of steps and host events, meets the invariant; in particular pc
is at most 4350, so that pc + 2 and pc + 4 are exact there (R25, R36, R249). -/
def Obligations.ReachableStatesMeetTheInvariant : Prop :=
  ∀ s : State, Reachable s → Inv s ∧ (s.pc + 2#16).toNat = s.pc.toNat + 2 ∧ (s.pc + 4#16).toNat = s.pc.toNat + 4
end

