-- ==== Sys2Proof/Laws/Decode.lean ====
section
/-! SUPPORT. The small laws of the splitter, operand assembly and the encoder: splitting a word and putting it together
are inverse, and so are a field and its nibbles. -/

namespace Sys2Proof

theorem wordOfNibbles_toNat (a b c d : Nibble) :
    (wordOfNibbles a b c d).toNat = a.toNat * 4096 + b.toNat * 256 + c.toNat * 16 + d.toNat := by
  have := a.isLt; have := b.isLt; have := c.isLt; have := d.isLt
  simp only [wordOfNibbles, BitVec.toNat_ofNat]
  omega

theorem nibble1_toNat (w : Word) : (nibble1 w).toNat = w.toNat / 4096 := by
  have := w.isLt
  simp only [nibble1, BitVec.extractLsb'_toNat, Nat.shiftRight_eq_div_pow]
  omega

theorem nibble2_toNat (w : Word) : (nibble2 w).toNat = w.toNat / 256 % 16 := by
  simp only [nibble2, BitVec.extractLsb'_toNat, Nat.shiftRight_eq_div_pow]

theorem nibble3_toNat (w : Word) : (nibble3 w).toNat = w.toNat / 16 % 16 := by
  simp only [nibble3, BitVec.extractLsb'_toNat, Nat.shiftRight_eq_div_pow]

theorem nibble4_toNat (w : Word) : (nibble4 w).toNat = w.toNat % 16 := by
  simp [nibble4, BitVec.extractLsb'_toNat]

@[simp] theorem nibble1_wordOfNibbles (a b c d : Nibble) : nibble1 (wordOfNibbles a b c d) = a := by
  have := a.isLt; have := b.isLt; have := c.isLt; have := d.isLt
  apply BitVec.eq_of_toNat_eq; rw [nibble1_toNat, wordOfNibbles_toNat]; omega

@[simp] theorem nibble2_wordOfNibbles (a b c d : Nibble) : nibble2 (wordOfNibbles a b c d) = b := by
  have := a.isLt; have := b.isLt; have := c.isLt; have := d.isLt
  apply BitVec.eq_of_toNat_eq; rw [nibble2_toNat, wordOfNibbles_toNat]; omega

@[simp] theorem nibble3_wordOfNibbles (a b c d : Nibble) : nibble3 (wordOfNibbles a b c d) = c := by
  have := a.isLt; have := b.isLt; have := c.isLt; have := d.isLt
  apply BitVec.eq_of_toNat_eq; rw [nibble3_toNat, wordOfNibbles_toNat]; omega

@[simp] theorem nibble4_wordOfNibbles (a b c d : Nibble) : nibble4 (wordOfNibbles a b c d) = d := by
  have := a.isLt; have := b.isLt; have := c.isLt; have := d.isLt
  apply BitVec.eq_of_toNat_eq; rw [nibble4_toNat, wordOfNibbles_toNat]; omega

/-- Splitting a word into its nibbles drops nothing. -/
@[simp] theorem wordOfNibbles_nibbles (w : Word) :
    wordOfNibbles (nibble1 w) (nibble2 w) (nibble3 w) (nibble4 w) = w := by
  apply BitVec.eq_of_toNat_eq
  rw [wordOfNibbles_toNat, nibble1_toNat, nibble2_toNat, nibble3_toNat, nibble4_toNat]
  omega

@[simp] theorem decode_wordOfNibbles (sj : Bool) (a b c d : Nibble) :
    decode sj (wordOfNibbles a b c d) = decodeNibbles sj a b c d := by
  simp [decode]

@[simp] theorem registerIndex_fieldNibble (X : Reg) : registerIndex (fieldNibble X) = X := by
  apply Fin.ext; have := X.isLt
  simp only [registerIndex, fieldNibble, BitVec.toNat_ofNat]; omega

@[simp] theorem rowCount_fieldNibble (N : Fin 16) : rowCount (fieldNibble N) = N := registerIndex_fieldNibble N

@[simp] theorem fieldNibble_registerIndex (n : Nibble) : fieldNibble (registerIndex n) = n := by
  apply BitVec.eq_of_toNat_eq; have := n.isLt
  simp only [registerIndex, fieldNibble, BitVec.toNat_ofNat]; omega

@[simp] theorem fieldNibble_rowCount (n : Nibble) : fieldNibble (rowCount n) = n := fieldNibble_registerIndex n

theorem immediate_toNat (a b : Nibble) : (immediate a b).toNat = a.toNat * 16 + b.toNat := by
  have := a.isLt; have := b.isLt
  simp only [immediate, BitVec.toNat_ofNat]; omega

theorem absoluteAddress_toNat (a b c : Nibble) :
    (absoluteAddress a b c).toNat = a.toNat * 256 + b.toNat * 16 + c.toNat := by
  have := a.isLt; have := b.isLt; have := c.isLt
  simp only [absoluteAddress, BitVec.toNat_ofNat]; omega

@[simp] theorem immediate_split (KK : Byte) : immediate (KK.extractLsb' 4 4) (KK.extractLsb' 0 4) = KK := by
  apply BitVec.eq_of_toNat_eq; have := KK.isLt
  simp only [immediate_toNat, BitVec.extractLsb'_toNat, Nat.shiftRight_eq_div_pow]; omega

@[simp] theorem immediate_high (a b : Nibble) : (immediate a b).extractLsb' 4 4 = a := by
  apply BitVec.eq_of_toNat_eq; have := a.isLt; have := b.isLt
  simp only [immediate_toNat, BitVec.extractLsb'_toNat, Nat.shiftRight_eq_div_pow]; omega

@[simp] theorem immediate_low (a b : Nibble) : (immediate a b).extractLsb' 0 4 = b := by
  apply BitVec.eq_of_toNat_eq; have := a.isLt; have := b.isLt
  simp only [immediate_toNat, BitVec.extractLsb'_toNat, Nat.shiftRight_eq_div_pow]; omega

@[simp] theorem absoluteAddress_split (NNN : Addr) :
    absoluteAddress (NNN.extractLsb' 8 4) (NNN.extractLsb' 4 4) (NNN.extractLsb' 0 4) = NNN := by
  apply BitVec.eq_of_toNat_eq; have := NNN.isLt
  simp only [absoluteAddress_toNat, BitVec.extractLsb'_toNat, Nat.shiftRight_eq_div_pow]; omega

@[simp] theorem absoluteAddress_high (a b c : Nibble) : (absoluteAddress a b c).extractLsb' 8 4 = a := by
  apply BitVec.eq_of_toNat_eq; have := a.isLt; have := b.isLt; have := c.isLt
  simp only [absoluteAddress_toNat, BitVec.extractLsb'_toNat, Nat.shiftRight_eq_div_pow]; omega

@[simp] theorem absoluteAddress_mid (a b c : Nibble) : (absoluteAddress a b c).extractLsb' 4 4 = b := by
  apply BitVec.eq_of_toNat_eq; have := a.isLt; have := b.isLt; have := c.isLt
  simp only [absoluteAddress_toNat, BitVec.extractLsb'_toNat, Nat.shiftRight_eq_div_pow]; omega

@[simp] theorem absoluteAddress_low (a b c : Nibble) : (absoluteAddress a b c).extractLsb' 0 4 = c := by
  apply BitVec.eq_of_toNat_eq; have := a.isLt; have := b.isLt; have := c.isLt
  simp only [absoluteAddress_toNat, BitVec.extractLsb'_toNat, Nat.shiftRight_eq_div_pow]; omega

theorem wordOfBytes_toNat (hi lo : Byte) : (wordOfBytes hi lo).toNat = hi.toNat * 256 + lo.toNat := by
  have := hi.isLt; have := lo.isLt
  simp only [wordOfBytes, BitVec.toNat_ofNat]; omega

/-- A word stored as two bytes and read back is the word (20_memory.md R51). -/
@[simp] theorem wordOfBytes_bytes (w : Word) : wordOfBytes (highByte w) (lowByte w) = w := by
  apply BitVec.eq_of_toNat_eq; have := w.isLt
  simp only [wordOfBytes_toNat, highByte, lowByte, BitVec.extractLsb'_toNat, Nat.shiftRight_eq_div_pow]; omega

@[simp] theorem decode_encodeXKK (sj : Bool) (o : Nibble) (X : Reg) (KK : Byte) :
    decode sj (encodeXKK o X KK) =
      decodeNibbles sj o (fieldNibble X) (KK.extractLsb' 4 4) (KK.extractLsb' 0 4) := by
  simp [encodeXKK]

@[simp] theorem decode_encodeNNN (sj : Bool) (o : Nibble) (NNN : Addr) :
    decode sj (encodeNNN o NNN) =
      decodeNibbles sj o (NNN.extractLsb' 8 4) (NNN.extractLsb' 4 4) (NNN.extractLsb' 0 4) := by
  simp [encodeNNN]

@[simp] theorem decode_encodeXYF (sj : Bool) (o : Nibble) (X Y : Reg) (f : Nibble) :
    decode sj (encodeXYF o X Y f) = decodeNibbles sj o (fieldNibble X) (fieldNibble Y) f := by
  simp [encodeXYF]

/-! ### The formats as numbers (30_encoding.md R81) -/

theorem encodeNNN_toNat (o : Nibble) (NNN : Addr) : (encodeNNN o NNN).toNat = o.toNat * 4096 + NNN.toNat := by
  have := NNN.isLt
  rw [encodeNNN, wordOfNibbles_toNat]
  simp only [BitVec.extractLsb'_toNat, Nat.shiftRight_eq_div_pow]; omega

theorem encodeXKK_toNat (o : Nibble) (X : Reg) (KK : Byte) :
    (encodeXKK o X KK).toNat = o.toNat * 4096 + 256 * X.val + KK.toNat := by
  have := KK.isLt; have := X.isLt
  rw [encodeXKK, wordOfNibbles_toNat]
  simp only [fieldNibble, BitVec.toNat_ofNat, BitVec.extractLsb'_toNat, Nat.shiftRight_eq_div_pow]; omega

theorem encodeXYF_toNat (o : Nibble) (X Y : Reg) (f : Nibble) :
    (encodeXYF o X Y f).toNat = o.toNat * 4096 + 256 * X.val + 16 * Y.val + f.toNat := by
  have := X.isLt; have := Y.isLt
  rw [encodeXYF, wordOfNibbles_toNat]
  simp only [fieldNibble, BitVec.toNat_ofNat]; omega

theorem fieldNibble_toNat (n : Fin 16) : (fieldNibble n).toNat = n.val := by
  have := n.isLt
  simp only [fieldNibble, BitVec.toNat_ofNat]; omega

/-- A word is the 16-bit value of its number. -/
theorem word_eq_of_toNat {v : Word} {w : Nat} (h : v.toNat = w) : v = BitVec.ofNat 16 w := by
  subst h; simp

/-! ### Which words the sub-dispatches reject (30_encoding.md R89) -/

theorem decodeGroup8_error (X Y : Reg) (d : Nibble) :
    decodeGroup8 X Y d = .error .unmatched ↔ d.toNat ∈ [0x8, 0x9, 0xA, 0xB, 0xC, 0xD, 0xF] := by
  have := d.isLt
  unfold decodeGroup8
  generalize d.toNat = n at *
  split
  all_goals simp
  simp only [imp_false] at *
  omega

theorem decodeGroupE_error (X : Reg) (kk : Byte) :
    decodeGroupE X kk = .error .unmatched ↔ kk.toNat ∉ [0x9E, 0xA1] := by
  unfold decodeGroupE
  split <;> simp_all

theorem decodeGroupF_error (X : Reg) (kk : Byte) : decodeGroupF X kk = .error .unmatched ↔
    kk.toNat ∉ [0x07, 0x0A, 0x15, 0x18, 0x1E, 0x29, 0x33, 0x55, 0x65] := by
  unfold decodeGroupF
  split <;> simp_all

/-- The decoder on the two bytes of a word is the decoder on the word. -/
theorem decodeBytes_word (sj : Bool) (w : Word) (rest : List Byte) (i : Instr) (h : decode sj w = .ok i) :
    decodeBytes sj (highByte w :: lowByte w :: rest) = .ok (i, rest) := by
  simp [decodeBytes, h]

end Sys2Proof
end

