-- ==== Sys2Proof/Laws/State.lean ====
section
/-! SUPPORT. One lemma per field per update of State, so that no later proof unfolds a record update. -/

namespace Sys2Proof.Machine

@[simp] theorem setReg_cfg (s : State) (r : Reg) (v : Byte) : (s.setReg r v).cfg = s.cfg := rfl

@[simp] theorem setReg_I (s : State) (r : Reg) (v : Byte) : (s.setReg r v).I = s.I := rfl

@[simp] theorem setReg_pc (s : State) (r : Reg) (v : Byte) : (s.setReg r v).pc = s.pc := rfl

@[simp] theorem setReg_stack (s : State) (r : Reg) (v : Byte) : (s.setReg r v).stack = s.stack := rfl

@[simp] theorem setReg_sp (s : State) (r : Reg) (v : Byte) : (s.setReg r v).sp = s.sp := rfl

@[simp] theorem setReg_engine (s : State) (r : Reg) (v : Byte) : (s.setReg r v).engine = s.engine := rfl

@[simp] theorem setReg_mem (s : State) (r : Reg) (v : Byte) : (s.setReg r v).mem = s.mem := rfl

@[simp] theorem setReg_fb (s : State) (r : Reg) (v : Byte) : (s.setReg r v).fb = s.fb := rfl

@[simp] theorem setReg_DT (s : State) (r : Reg) (v : Byte) : (s.setReg r v).DT = s.DT := rfl

@[simp] theorem setReg_ST (s : State) (r : Reg) (v : Byte) : (s.setReg r v).ST = s.ST := rfl

@[simp] theorem setReg_keys (s : State) (r : Reg) (v : Byte) : (s.setReg r v).keys = s.keys := rfl

@[simp] theorem setReg_randomIn (s : State) (r : Reg) (v : Byte) : (s.setReg r v).randomIn = s.randomIn := rfl

@[simp] theorem setReg_randomCount (s : State) (r : Reg) (v : Byte) : (s.setReg r v).randomCount = s.randomCount := rfl

@[simp] theorem setReg_x (s : State) (r : Reg) (v : Byte) : (s.setReg r v).x = s.x.set r.val v := rfl

@[simp] theorem applyEffect_cfg (s : State) (e : Effect) : (s.applyEffect e).cfg = s.cfg := by cases e <;> rfl

@[simp] theorem applyEffect_x (s : State) (e : Effect) : (s.applyEffect e).x = s.x := by cases e <;> rfl

@[simp] theorem applyEffect_I (s : State) (e : Effect) : (s.applyEffect e).I = s.I := by cases e <;> rfl

@[simp] theorem applyEffect_stack (s : State) (e : Effect) : (s.applyEffect e).stack = s.stack := by cases e <;> rfl

@[simp] theorem applyEffect_sp (s : State) (e : Effect) : (s.applyEffect e).sp = s.sp := by cases e <;> rfl

@[simp] theorem applyEffect_mem (s : State) (e : Effect) : (s.applyEffect e).mem = s.mem := by cases e <;> rfl

@[simp] theorem applyEffect_fb (s : State) (e : Effect) : (s.applyEffect e).fb = s.fb := by cases e <;> rfl

@[simp] theorem applyEffect_DT (s : State) (e : Effect) : (s.applyEffect e).DT = s.DT := by cases e <;> rfl

@[simp] theorem applyEffect_ST (s : State) (e : Effect) : (s.applyEffect e).ST = s.ST := by cases e <;> rfl

@[simp] theorem applyEffect_keys (s : State) (e : Effect) : (s.applyEffect e).keys = s.keys := by cases e <;> rfl

@[simp] theorem applyEffect_randomIn (s : State) (e : Effect) : (s.applyEffect e).randomIn = s.randomIn := by cases e <;> rfl

@[simp] theorem applyEffect_randomCount (s : State) (e : Effect) : (s.applyEffect e).randomCount = s.randomCount := by cases e <;> rfl

@[simp] theorem applyEffect_next_pc (s : State) : (s.applyEffect .next).pc = s.pc + 2#16 := rfl

@[simp] theorem applyEffect_next_engine (s : State) : (s.applyEffect .next).engine = s.engine := rfl

@[simp] theorem applyEffect_skip_pc (s : State) : (s.applyEffect .skip).pc = s.pc + 4#16 := rfl

@[simp] theorem applyEffect_skip_engine (s : State) : (s.applyEffect .skip).engine = s.engine := rfl

@[simp] theorem applyEffect_jump_pc (s : State) (t : Word) : (s.applyEffect (.jump t)).pc = t := rfl

@[simp] theorem applyEffect_jump_engine (s : State) (t : Word) : (s.applyEffect (.jump t)).engine = s.engine := rfl

@[simp] theorem applyEffect_suspend_pc (s : State) (X : Reg) : (s.applyEffect (.suspend X)).pc = s.pc := rfl

@[simp] theorem applyEffect_suspend_engine (s : State) (X : Reg) :
    (s.applyEffect (.suspend X)).engine = .awaitingKey X := rfl

@[simp] theorem applyEffect_skipIf_pc (s : State) (c : Bool) :
    (s.applyEffect (skipIf c)).pc = if c then s.pc + 4#16 else s.pc + 2#16 := by cases c <;> rfl

@[simp] theorem applyEffect_skipIf_engine (s : State) (c : Bool) : (s.applyEffect (skipIf c)).engine = s.engine := by cases c <;> rfl

@[simp] theorem enterFault_cfg (s : State) (k : FaultKind) (w : Option Word) : (s.enterFault k w).cfg = s.cfg := rfl

@[simp] theorem enterFault_x (s : State) (k : FaultKind) (w : Option Word) : (s.enterFault k w).x = s.x := rfl

@[simp] theorem enterFault_I (s : State) (k : FaultKind) (w : Option Word) : (s.enterFault k w).I = s.I := rfl

@[simp] theorem enterFault_pc (s : State) (k : FaultKind) (w : Option Word) : (s.enterFault k w).pc = s.pc := rfl

@[simp] theorem enterFault_stack (s : State) (k : FaultKind) (w : Option Word) :
    (s.enterFault k w).stack = s.stack := rfl

@[simp] theorem enterFault_sp (s : State) (k : FaultKind) (w : Option Word) : (s.enterFault k w).sp = s.sp := rfl

@[simp] theorem enterFault_mem (s : State) (k : FaultKind) (w : Option Word) : (s.enterFault k w).mem = s.mem := rfl

@[simp] theorem enterFault_fb (s : State) (k : FaultKind) (w : Option Word) : (s.enterFault k w).fb = s.fb := rfl

@[simp] theorem enterFault_DT (s : State) (k : FaultKind) (w : Option Word) : (s.enterFault k w).DT = s.DT := rfl

@[simp] theorem enterFault_ST (s : State) (k : FaultKind) (w : Option Word) : (s.enterFault k w).ST = s.ST := rfl

@[simp] theorem enterFault_keys (s : State) (k : FaultKind) (w : Option Word) : (s.enterFault k w).keys = s.keys := rfl

@[simp] theorem enterFault_randomIn (s : State) (k : FaultKind) (w : Option Word) :
    (s.enterFault k w).randomIn = s.randomIn := rfl

@[simp] theorem enterFault_randomCount (s : State) (k : FaultKind) (w : Option Word) :
    (s.enterFault k w).randomCount = s.randomCount := rfl

@[simp] theorem enterFault_engine (s : State) (k : FaultKind) (w : Option Word) :
    (s.enterFault k w).engine = .faulted { kind := k, pc := s.pc, opcode := w } := rfl

@[simp] theorem writeDestAndFlag_cfg (s : State) (X : Reg) (r f : Byte) : (s.writeDestAndFlag X r f).cfg = s.cfg := by
  unfold State.writeDestAndFlag; split <;> rfl

@[simp] theorem writeDestAndFlag_I (s : State) (X : Reg) (r f : Byte) : (s.writeDestAndFlag X r f).I = s.I := by
  unfold State.writeDestAndFlag; split <;> rfl

@[simp] theorem writeDestAndFlag_pc (s : State) (X : Reg) (r f : Byte) : (s.writeDestAndFlag X r f).pc = s.pc := by
  unfold State.writeDestAndFlag; split <;> rfl

@[simp] theorem writeDestAndFlag_stack (s : State) (X : Reg) (r f : Byte) :
    (s.writeDestAndFlag X r f).stack = s.stack := by
  unfold State.writeDestAndFlag; split <;> rfl

@[simp] theorem writeDestAndFlag_sp (s : State) (X : Reg) (r f : Byte) : (s.writeDestAndFlag X r f).sp = s.sp := by
  unfold State.writeDestAndFlag; split <;> rfl

@[simp] theorem writeDestAndFlag_engine (s : State) (X : Reg) (r f : Byte) :
    (s.writeDestAndFlag X r f).engine = s.engine := by
  unfold State.writeDestAndFlag; split <;> rfl

@[simp] theorem writeDestAndFlag_mem (s : State) (X : Reg) (r f : Byte) : (s.writeDestAndFlag X r f).mem = s.mem := by
  unfold State.writeDestAndFlag; split <;> rfl

@[simp] theorem writeDestAndFlag_fb (s : State) (X : Reg) (r f : Byte) : (s.writeDestAndFlag X r f).fb = s.fb := by
  unfold State.writeDestAndFlag; split <;> rfl

@[simp] theorem writeDestAndFlag_DT (s : State) (X : Reg) (r f : Byte) : (s.writeDestAndFlag X r f).DT = s.DT := by
  unfold State.writeDestAndFlag; split <;> rfl

@[simp] theorem writeDestAndFlag_ST (s : State) (X : Reg) (r f : Byte) : (s.writeDestAndFlag X r f).ST = s.ST := by
  unfold State.writeDestAndFlag; split <;> rfl

@[simp] theorem writeDestAndFlag_keys (s : State) (X : Reg) (r f : Byte) :
    (s.writeDestAndFlag X r f).keys = s.keys := by
  unfold State.writeDestAndFlag; split <;> rfl

@[simp] theorem writeDestAndFlag_randomIn (s : State) (X : Reg) (r f : Byte) :
    (s.writeDestAndFlag X r f).randomIn = s.randomIn := by
  unfold State.writeDestAndFlag; split <;> rfl

@[simp] theorem writeDestAndFlag_randomCount (s : State) (X : Reg) (r f : Byte) :
    (s.writeDestAndFlag X r f).randomCount = s.randomCount := by
  unfold State.writeDestAndFlag; split <;> rfl

@[simp] theorem afterDraw_cfg (s : State) : s.afterDraw.cfg = s.cfg := by
  unfold State.afterDraw; split <;> rfl

@[simp] theorem afterDraw_x (s : State) : s.afterDraw.x = s.x := by
  unfold State.afterDraw; split <;> rfl

@[simp] theorem afterDraw_I (s : State) : s.afterDraw.I = s.I := by
  unfold State.afterDraw; split <;> rfl

@[simp] theorem afterDraw_pc (s : State) : s.afterDraw.pc = s.pc := by
  unfold State.afterDraw; split <;> rfl

@[simp] theorem afterDraw_stack (s : State) : s.afterDraw.stack = s.stack := by
  unfold State.afterDraw; split <;> rfl

@[simp] theorem afterDraw_sp (s : State) : s.afterDraw.sp = s.sp := by
  unfold State.afterDraw; split <;> rfl

@[simp] theorem afterDraw_engine (s : State) : s.afterDraw.engine = s.engine := by
  unfold State.afterDraw; split <;> rfl

@[simp] theorem afterDraw_mem (s : State) : s.afterDraw.mem = s.mem := by
  unfold State.afterDraw; split <;> rfl

@[simp] theorem afterDraw_fb (s : State) : s.afterDraw.fb = s.fb := by
  unfold State.afterDraw; split <;> rfl

@[simp] theorem afterDraw_DT (s : State) : s.afterDraw.DT = s.DT := by
  unfold State.afterDraw; split <;> rfl

@[simp] theorem afterDraw_ST (s : State) : s.afterDraw.ST = s.ST := by
  unfold State.afterDraw; split <;> rfl

@[simp] theorem afterDraw_keys (s : State) : s.afterDraw.keys = s.keys := by
  unfold State.afterDraw; split <;> rfl

@[simp] theorem drawSprite_cfg (s : State) (x0 y0 : Byte) (rows : List Byte) :
    (s.drawSprite x0 y0 rows).cfg = s.cfg := rfl

@[simp] theorem drawSprite_I (s : State) (x0 y0 : Byte) (rows : List Byte) : (s.drawSprite x0 y0 rows).I = s.I := rfl

@[simp] theorem drawSprite_pc (s : State) (x0 y0 : Byte) (rows : List Byte) :
    (s.drawSprite x0 y0 rows).pc = s.pc := rfl

@[simp] theorem drawSprite_stack (s : State) (x0 y0 : Byte) (rows : List Byte) :
    (s.drawSprite x0 y0 rows).stack = s.stack := rfl

@[simp] theorem drawSprite_sp (s : State) (x0 y0 : Byte) (rows : List Byte) :
    (s.drawSprite x0 y0 rows).sp = s.sp := rfl

@[simp] theorem drawSprite_engine (s : State) (x0 y0 : Byte) (rows : List Byte) :
    (s.drawSprite x0 y0 rows).engine = s.engine := rfl

@[simp] theorem drawSprite_mem (s : State) (x0 y0 : Byte) (rows : List Byte) :
    (s.drawSprite x0 y0 rows).mem = s.mem := rfl

@[simp] theorem drawSprite_DT (s : State) (x0 y0 : Byte) (rows : List Byte) :
    (s.drawSprite x0 y0 rows).DT = s.DT := rfl

@[simp] theorem drawSprite_ST (s : State) (x0 y0 : Byte) (rows : List Byte) :
    (s.drawSprite x0 y0 rows).ST = s.ST := rfl

@[simp] theorem drawSprite_keys (s : State) (x0 y0 : Byte) (rows : List Byte) :
    (s.drawSprite x0 y0 rows).keys = s.keys := rfl

@[simp] theorem drawSprite_randomIn (s : State) (x0 y0 : Byte) (rows : List Byte) :
    (s.drawSprite x0 y0 rows).randomIn = s.randomIn := rfl

@[simp] theorem drawSprite_randomCount (s : State) (x0 y0 : Byte) (rows : List Byte) :
    (s.drawSprite x0 y0 rows).randomCount = s.randomCount := rfl

@[simp] theorem drawSprite_fb (s : State) (x0 y0 : Byte) (rows : List Byte) :
    (s.drawSprite x0 y0 rows).fb = (xorBlit s.cfg.fbW s.cfg.fbH s.fb x0 y0 rows).1 := rfl

@[simp] theorem tick_cfg (s : State) : s.tick.cfg = s.cfg := rfl

@[simp] theorem tick_x (s : State) : s.tick.x = s.x := rfl

@[simp] theorem tick_I (s : State) : s.tick.I = s.I := rfl

@[simp] theorem tick_pc (s : State) : s.tick.pc = s.pc := rfl

@[simp] theorem tick_stack (s : State) : s.tick.stack = s.stack := rfl

@[simp] theorem tick_sp (s : State) : s.tick.sp = s.sp := rfl

@[simp] theorem tick_engine (s : State) : s.tick.engine = s.engine := rfl

@[simp] theorem tick_mem (s : State) : s.tick.mem = s.mem := rfl

@[simp] theorem tick_fb (s : State) : s.tick.fb = s.fb := rfl

@[simp] theorem tick_keys (s : State) : s.tick.keys = s.keys := rfl

@[simp] theorem tick_randomIn (s : State) : s.tick.randomIn = s.randomIn := rfl

@[simp] theorem tick_randomCount (s : State) : s.tick.randomCount = s.randomCount := rfl

@[simp] theorem tick_DT (s : State) : s.tick.DT = countDown s.DT := rfl

@[simp] theorem tick_ST (s : State) : s.tick.ST = countDown s.ST := rfl

@[simp] theorem setKeys_cfg (s : State) (v : BitVec 16) : (s.setKeys v).cfg = s.cfg := rfl

@[simp] theorem setKeys_x (s : State) (v : BitVec 16) : (s.setKeys v).x = s.x := rfl

@[simp] theorem setKeys_I (s : State) (v : BitVec 16) : (s.setKeys v).I = s.I := rfl

@[simp] theorem setKeys_pc (s : State) (v : BitVec 16) : (s.setKeys v).pc = s.pc := rfl

@[simp] theorem setKeys_stack (s : State) (v : BitVec 16) : (s.setKeys v).stack = s.stack := rfl

@[simp] theorem setKeys_sp (s : State) (v : BitVec 16) : (s.setKeys v).sp = s.sp := rfl

@[simp] theorem setKeys_engine (s : State) (v : BitVec 16) : (s.setKeys v).engine = s.engine := rfl

@[simp] theorem setKeys_mem (s : State) (v : BitVec 16) : (s.setKeys v).mem = s.mem := rfl

@[simp] theorem setKeys_fb (s : State) (v : BitVec 16) : (s.setKeys v).fb = s.fb := rfl

@[simp] theorem setKeys_DT (s : State) (v : BitVec 16) : (s.setKeys v).DT = s.DT := rfl

@[simp] theorem setKeys_ST (s : State) (v : BitVec 16) : (s.setKeys v).ST = s.ST := rfl

@[simp] theorem setKeys_randomIn (s : State) (v : BitVec 16) : (s.setKeys v).randomIn = s.randomIn := rfl

@[simp] theorem setKeys_randomCount (s : State) (v : BitVec 16) : (s.setKeys v).randomCount = s.randomCount := rfl

@[simp] theorem setKeys_keys (s : State) (v : BitVec 16) : (s.setKeys v).keys = v := rfl

@[simp] theorem supplyRandom_cfg (s : State) (bs : List Byte) : (s.supplyRandom bs).cfg = s.cfg := rfl

@[simp] theorem supplyRandom_x (s : State) (bs : List Byte) : (s.supplyRandom bs).x = s.x := rfl

@[simp] theorem supplyRandom_I (s : State) (bs : List Byte) : (s.supplyRandom bs).I = s.I := rfl

@[simp] theorem supplyRandom_pc (s : State) (bs : List Byte) : (s.supplyRandom bs).pc = s.pc := rfl

@[simp] theorem supplyRandom_stack (s : State) (bs : List Byte) : (s.supplyRandom bs).stack = s.stack := rfl

@[simp] theorem supplyRandom_sp (s : State) (bs : List Byte) : (s.supplyRandom bs).sp = s.sp := rfl

@[simp] theorem supplyRandom_engine (s : State) (bs : List Byte) : (s.supplyRandom bs).engine = s.engine := rfl

@[simp] theorem supplyRandom_mem (s : State) (bs : List Byte) : (s.supplyRandom bs).mem = s.mem := rfl

@[simp] theorem supplyRandom_fb (s : State) (bs : List Byte) : (s.supplyRandom bs).fb = s.fb := rfl

@[simp] theorem supplyRandom_DT (s : State) (bs : List Byte) : (s.supplyRandom bs).DT = s.DT := rfl

@[simp] theorem supplyRandom_ST (s : State) (bs : List Byte) : (s.supplyRandom bs).ST = s.ST := rfl

@[simp] theorem supplyRandom_keys (s : State) (bs : List Byte) : (s.supplyRandom bs).keys = s.keys := rfl

@[simp] theorem supplyRandom_randomCount (s : State) (bs : List Byte) :
    (s.supplyRandom bs).randomCount = s.randomCount := rfl

@[simp] theorem supplyRandom_randomIn (s : State) (bs : List Byte) :
    (s.supplyRandom bs).randomIn = s.randomIn ++ bs := rfl

@[simp] theorem placeWord_cfg (s : State) (w : Word) : (s.placeWord w).cfg = s.cfg := rfl

@[simp] theorem placeWord_x (s : State) (w : Word) : (s.placeWord w).x = s.x := rfl

@[simp] theorem placeWord_I (s : State) (w : Word) : (s.placeWord w).I = s.I := rfl

@[simp] theorem placeWord_stack (s : State) (w : Word) : (s.placeWord w).stack = s.stack := rfl

@[simp] theorem placeWord_sp (s : State) (w : Word) : (s.placeWord w).sp = s.sp := rfl

@[simp] theorem placeWord_fb (s : State) (w : Word) : (s.placeWord w).fb = s.fb := rfl

@[simp] theorem placeWord_DT (s : State) (w : Word) : (s.placeWord w).DT = s.DT := rfl

@[simp] theorem placeWord_ST (s : State) (w : Word) : (s.placeWord w).ST = s.ST := rfl

@[simp] theorem placeWord_keys (s : State) (w : Word) : (s.placeWord w).keys = s.keys := rfl

@[simp] theorem placeWord_randomIn (s : State) (w : Word) : (s.placeWord w).randomIn = s.randomIn := rfl

@[simp] theorem placeWord_randomCount (s : State) (w : Word) : (s.placeWord w).randomCount = s.randomCount := rfl

@[simp] theorem placeWord_pc (s : State) (w : Word) : (s.placeWord w).pc = s.fetchablePc := rfl

@[simp] theorem placeWord_engine (s : State) (w : Word) : (s.placeWord w).engine = .running := rfl

/-! ### Reading a register after an update -/

@[simp] theorem setReg_reg_same (s : State) (r : Reg) (v : Byte) : (s.setReg r v).reg r = v := by
  simp [State.reg]

theorem setReg_reg_ne (s : State) (v : Byte) {r q : Reg} (h : q ≠ r) : (s.setReg r v).reg q = s.reg q := by
  have : r.val ≠ q.val := fun e => h (Fin.ext e.symm)
  simp [State.reg, Vector.getElem_set_ne, this]

theorem setReg_reg (s : State) (r q : Reg) (v : Byte) : (s.setReg r v).reg q = if q = r then v else s.reg q := by
  split
  · next h => subst h; simp
  · next h => exact setReg_reg_ne s v h

/-- Registers read the same in two states with the same register file. -/
theorem reg_congr {s t : State} (h : t.x = s.x) (r : Reg) : t.reg r = s.reg r := by simp [State.reg, h]

/-- A byte reads the same in two states with the same memory and glyph table. -/
theorem readByte_congr {s t : State} (hm : t.mem = s.mem) (hc : t.cfg = s.cfg) (a : Nat) :
    t.readByte a = s.readByte a := by simp [State.readByte, hm, hc]

@[simp] theorem applyEffect_reg (s : State) (e : Effect) (r : Reg) : (s.applyEffect e).reg r = s.reg r :=
  reg_congr (by simp) r

@[simp] theorem applyEffect_readByte (s : State) (e : Effect) (a : Nat) : (s.applyEffect e).readByte a = s.readByte a :=
  readByte_congr (by simp) (by simp) a

@[simp] theorem setReg_readByte (s : State) (r : Reg) (v : Byte) (a : Nat) : (s.setReg r v).readByte a = s.readByte a := rfl

@[simp] theorem enterFault_reg (s : State) (k : FaultKind) (w : Option Word) (r : Reg) :
    (s.enterFault k w).reg r = s.reg r := rfl

@[simp] theorem enterFault_readByte (s : State) (k : FaultKind) (w : Option Word) (a : Nat) :
    (s.enterFault k w).readByte a = s.readByte a := rfl

@[simp] theorem afterDraw_reg (s : State) (r : Reg) : s.afterDraw.reg r = s.reg r := reg_congr (by simp) r

@[simp] theorem afterDraw_readByte (s : State) (a : Nat) : s.afterDraw.readByte a = s.readByte a :=
  readByte_congr (by simp) (by simp) a

@[simp] theorem writeDestAndFlag_readByte (s : State) (X : Reg) (r f : Byte) (a : Nat) :
    (s.writeDestAndFlag X r f).readByte a = s.readByte a := readByte_congr (by simp) (by simp) a

@[simp] theorem drawSprite_readByte (s : State) (x0 y0 : Byte) (rows : List Byte) (a : Nat) :
    (s.drawSprite x0 y0 rows).readByte a = s.readByte a := rfl

end Sys2Proof.Machine
end

