-- ==== Sys2Proof/Laws/Flags.lean ====
section
/-! SUPPORT. The flag computations and 8-bit arithmetic in the numbers the spec states them in (41_alu.md R130 to R144). -/

namespace Sys2Proof.Machine

theorem flagByte_toNat (b : Bool) : (flagByte b).toNat = if b then 1 else 0 := by cases b <;> rfl

theorem carryFlag_toNat (a b : Byte) : (carryFlag a b).toNat = if a.toNat + b.toNat > 255 then 1 else 0 := by
  simp [carryFlag, flagByte_toNat]

theorem noBorrowFlag_toNat (a b : Byte) : (noBorrowFlag a b).toNat = if a.toNat ≥ b.toNat then 1 else 0 := by
  simp [noBorrowFlag, flagByte_toNat]

theorem shiftedOutLow_toNat (v : Byte) : (shiftedOutLow v).toNat = v.toNat % 2 := by
  rw [shiftedOutLow, flagByte_toNat, BitVec.getLsbD, Nat.testBit_zero]
  rcases Nat.mod_two_eq_zero_or_one v.toNat with h | h <;> simp [h]

theorem shiftedOutHigh_toNat (v : Byte) : (shiftedOutHigh v).toNat = v.toNat / 128 := by
  have := v.isLt
  rw [shiftedOutHigh, flagByte_toNat, BitVec.getLsbD, Nat.testBit_eq_decide_div_mod_eq]
  simp only [decide_eq_true_eq]
  split <;> omega

theorem sum8_toNat (a b : Byte) : (sum8 a b).toNat = (a.toNat + b.toNat) % 256 := by simp [sum8]

theorem difference8_toNat (a b : Byte) : (difference8 a b).toNat = (a.toNat + 256 - b.toNat) % 256 := by simp [difference8]

theorem half8_toNat (v : Byte) : (half8 v).toNat = v.toNat / 2 := by
  have := v.isLt
  simp only [half8, BitVec.toNat_ofNat]; omega

theorem double8_toNat (v : Byte) : (double8 v).toNat = v.toNat * 2 % 256 := by simp [double8]

/-- The sum and the difference are those of 8-bit words. -/
theorem sum8_eq (a b : Byte) : sum8 a b = a + b := by
  apply BitVec.eq_of_toNat_eq; rw [sum8_toNat, BitVec.toNat_add]

theorem difference8_eq (a b : Byte) : difference8 a b = a - b := by
  apply BitVec.eq_of_toNat_eq
  have := a.isLt; have := b.isLt
  rw [difference8_toNat, BitVec.toNat_sub]; congr 1; omega

/-- What the two writes leave in every register (41_alu.md R132). -/
theorem writeDestAndFlag_reg (s : State) (X q : Reg) (r f : Byte) :
    (s.writeDestAndFlag X r f).reg q =
      match s.cfg.flagOrder with
      | .flagThenDest => if q = X then r else if q = flagReg then f else s.reg q
      | .destThenFlag => if q = flagReg then f else if q = X then r else s.reg q := by
  unfold State.writeDestAndFlag
  cases s.cfg.flagOrder <;> simp only [setReg_reg]

theorem countDown_toNat (t : Byte) : (countDown t).toNat = t.toNat - 1 := by
  have := t.isLt
  simp only [countDown, BitVec.toNat_ofNat]; omega

theorem absoluteTarget_toNat (NNN : Addr) : (absoluteTarget NNN).toNat = NNN.toNat := by
  have := NNN.isLt
  simp only [absoluteTarget, BitVec.toNat_setWidth]; omega

theorem offsetTarget_toNat (NNN : Addr) (v : Byte) : (offsetTarget NNN v).toNat = NNN.toNat + v.toNat := by
  have := NNN.isLt; have := v.isLt
  simp only [offsetTarget, BitVec.toNat_ofNat]; omega

theorem glyphAddress_toNat (d : Fin 16) : (glyphAddress d).toNat = 5 * d.val := by
  have := d.isLt
  simp only [glyphAddress, BitVec.toNat_ofNat]; omega

theorem indexSum_toNat (I : Word) (v : Byte) : (indexSum I v).toNat = (I.toNat + v.toNat) % 65536 := by simp [indexSum]

end Sys2Proof.Machine
end

