-- ==== Sys2Proof/Laws/Framebuffer.lean ====
section
/-! SUPPORT. The laws of the framebuffer: a flip changes one pixel, keeps the canonical form, and two framebuffers in
canonical form with the same lit pixels are equal. -/

namespace Sys2Proof.Machine

theorem Pixel.before_trans {p q r : Pixel} (h : Pixel.before p q) (h' : Pixel.before q r) : Pixel.before p r := by
  simp only [Pixel.before] at *; omega

theorem Pixel.before_irrefl (p : Pixel) : ¬Pixel.before p p := by simp [Pixel.before]

theorem Pixel.trichotomy {p q : Pixel} (h : p ≠ q) (h' : ¬Pixel.before p q) : Pixel.before q p := by
  obtain ⟨a, b⟩ := p
  obtain ⟨c, d⟩ := q
  simp only [Pixel.before, ne_eq, Prod.mk.injEq] at *
  omega

@[simp] theorem lit_nil (p : Pixel) : Framebuffer.lit [] p = false := rfl

theorem lit_iff (fb : Framebuffer) (p : Pixel) : fb.lit p = true ↔ p ∈ fb := by simp [Framebuffer.lit]

/-- What a flip leaves lit: the flipped pixel if it was off, and every other pixel as it was. -/
theorem mem_flip {fb : Framebuffer} (p q : Pixel) (hfb : List.Pairwise Pixel.before fb) :
    q ∈ fb.flip p ↔ if q = p then p ∉ fb else q ∈ fb := by
  induction fb with
  | nil => simp [Framebuffer.flip]
  | cons r fb ih =>
    have hfb' := List.pairwise_cons.1 hfb
    have hr : r ∉ fb := fun h => Pixel.before_irrefl r (hfb'.1 r h)
    have ih := ih hfb'.2
    simp only [Framebuffer.flip]
    by_cases hpr : p = r
    · subst hpr
      by_cases hq : q = p
      · subst hq; simp [hr]
      · simp [hq]
    · rw [if_neg hpr]
      by_cases hb : Pixel.before p r
      · have hp : p ∉ fb := fun h => Pixel.before_irrefl p (Pixel.before_trans hb (hfb'.1 p h))
        rw [if_pos hb]
        by_cases hq : q = p
        · subst hq; simp [hpr, hp]
        · simp [hq]
      · rw [if_neg hb, List.mem_cons, ih]
        by_cases hq : q = p
        · subst hq; simp [hpr]
        · simp [hq]

/-- A flip changes exactly one pixel. -/
theorem lit_flip {fb : Framebuffer} (p q : Pixel) (hfb : List.Pairwise Pixel.before fb) :
    (fb.flip p).lit q = (fb.lit q ^^ decide (q = p)) := by
  rw [Bool.eq_iff_iff, lit_iff, mem_flip p q hfb]
  by_cases h : q = p
  · subst h; simp [Framebuffer.lit]
  · simp [h, Framebuffer.lit]

theorem flip_sorted {fb : Framebuffer} (p : Pixel) (hfb : List.Pairwise Pixel.before fb) :
    List.Pairwise Pixel.before (fb.flip p) := by
  induction fb with
  | nil => simp [Framebuffer.flip]
  | cons r fb ih =>
    have hfb' := List.pairwise_cons.1 hfb
    simp only [Framebuffer.flip]
    split
    · exact hfb'.2
    · next hpr =>
      split
      · next hb =>
        refine List.pairwise_cons.2 ⟨fun q hq => ?_, hfb⟩
        rcases List.mem_cons.1 hq with rfl | hq
        · exact hb
        · exact Pixel.before_trans hb (hfb'.1 q hq)
      · next hb =>
        refine List.pairwise_cons.2 ⟨fun q hq => ?_, ih hfb'.2⟩
        rw [mem_flip p q hfb'.2] at hq
        split at hq
        · next h => subst h; exact Pixel.trichotomy hpr hb
        · exact hfb'.1 q hq

/-- A flip inside the grid keeps the canonical form. -/
theorem flip_wf {W H : Nat} {fb : Framebuffer} {p : Pixel} (hfb : Framebuffer.wf W H fb) (hp : p.1 < H ∧ p.2 < W) :
    Framebuffer.wf W H (fb.flip p) := by
  refine ⟨flip_sorted p hfb.1, fun q hq => ?_⟩
  rw [mem_flip p q hfb.1] at hq
  split at hq
  · next h => exact h ▸ hp
  · exact hfb.2 q hq

theorem nil_fb_wf (W H : Nat) : Framebuffer.wf W H [] := by simp [Framebuffer.wf]

/-- Two sorted framebuffers with the same lit pixels are the same list. -/
theorem framebuffer_ext {fb fb' : Framebuffer} (h : List.Pairwise Pixel.before fb) (h' : List.Pairwise Pixel.before fb')
    (hl : ∀ p, fb.lit p = fb'.lit p) : fb = fb' := by
  have hmem : ∀ p, p ∈ fb ↔ p ∈ fb' := fun p => by rw [← lit_iff, ← lit_iff, hl]
  have nodup : ∀ {l : Framebuffer}, List.Pairwise Pixel.before l → l.Nodup := fun hl =>
    hl.imp fun {p q} hpq e => by subst e; exact Pixel.before_irrefl p hpq
  have hp : fb.Perm fb' := (List.perm_ext_iff_of_nodup (nodup h) (nodup h')).2 hmem
  refine List.Perm.eq_of_pairwise (fun p q _ _ hpq hqp => ?_) h h' hp
  exact absurd (Pixel.before_trans hpq hqp) (Pixel.before_irrefl p)

theorem rowPixels_mem {W x0 py : Nat} {row : Byte} {p : Pixel} (hW : 0 < W) (h : p ∈ rowPixels W x0 py row) :
    p.1 = py ∧ p.2 < W := by
  simp only [rowPixels, List.mem_filterMap, List.mem_range, Option.ite_none_right_eq_some, Option.some.injEq] at h
  obtain ⟨c, -, -, rfl⟩ := h
  exact ⟨rfl, Nat.mod_lt _ hW⟩

/-- Every pixel of a sprite is inside the grid: coordinates wrap (43_io.md R182). -/
theorem spritePixels_inside {W H x0 y : Nat} {rows : List Byte} (hW : 0 < W) (hH : 0 < H) :
    ∀ p ∈ spritePixels W H x0 y rows, p.1 < H ∧ p.2 < W := by
  induction rows generalizing y with
  | nil => simp [spritePixels]
  | cons row rows ih =>
    intro p hp
    rcases List.mem_append.1 hp with h | h
    · obtain ⟨h1, h2⟩ := rowPixels_mem hW h
      exact ⟨h1 ▸ Nat.mod_lt _ hH, h2⟩
    · exact ih p h

theorem flipPixels_wf {W H : Nat} {ps : List Pixel} {fb : Framebuffer} {c : Bool} (hfb : Framebuffer.wf W H fb)
    (hps : ∀ p ∈ ps, p.1 < H ∧ p.2 < W) : Framebuffer.wf W H (flipPixels ps fb c).1 := by
  induction ps generalizing fb c with
  | nil => exact hfb
  | cons p ps ih => exact ih (flip_wf hfb (hps p (by simp))) fun q hq => hps q (by simp [hq])

theorem flipPixels_sorted {ps : List Pixel} {fb : Framebuffer} {c : Bool} (hfb : List.Pairwise Pixel.before fb) :
    List.Pairwise Pixel.before (flipPixels ps fb c).1 := by
  induction ps generalizing fb c with
  | nil => exact hfb
  | cons p ps ih => exact ih (flip_sorted p hfb)

/-- A pixel is lit after a sequence of flips iff it was lit an even number of flips ago. -/
theorem lit_flipPixels {ps : List Pixel} {fb : Framebuffer} {c : Bool} (q : Pixel)
    (hfb : List.Pairwise Pixel.before fb) :
    (flipPixels ps fb c).1.lit q = (fb.lit q ^^ decide (ps.count q % 2 = 1)) := by
  induction ps generalizing fb c with
  | nil => simp [flipPixels]
  | cons p ps ih =>
    simp only [flipPixels]
    rw [ih (flip_sorted p hfb), lit_flip p q hfb, Bool.xor_assoc, List.count_cons]
    congr 1
    by_cases h : q = p
    · subst h
      rcases Nat.mod_two_eq_zero_or_one (List.count q ps) with e | e <;> simp [e, Nat.add_mod]
    · simp [h, Ne.symm h]

/-- The collision of a sequence of flips: some flipped pixel was lit, or is flipped twice. -/
theorem flipPixels_collision {ps : List Pixel} {fb : Framebuffer} {c : Bool} (hfb : List.Pairwise Pixel.before fb) :
    (flipPixels ps fb c).2 = true ↔ c = true ∨ ∃ p ∈ ps, fb.lit p = true ∨ 2 ≤ ps.count p := by
  induction ps generalizing fb c with
  | nil => simp [flipPixels]
  | cons p ps ih =>
    simp only [flipPixels]
    rw [ih (flip_sorted p hfb), Bool.or_eq_true, or_assoc]
    refine or_congr_right ⟨?_, ?_⟩
    · rintro (h | ⟨q, hq, h⟩)
      · exact ⟨p, by simp, .inl h⟩
      · rw [lit_flip p q hfb] at h
        by_cases e : q = p
        · subst e
          refine ⟨q, by simp, .inr ?_⟩
          have := List.count_pos_iff.2 hq
          rw [List.count_cons_self]; omega
        · refine ⟨q, by simp [hq], ?_⟩
          simpa [e, List.count_cons, Ne.symm e] using h
    · rintro ⟨q, hq, h⟩
      by_cases hl : fb.lit p = true
      · exact .inl hl
      · right
        by_cases e : q = p
        · subst e
          have h2 : 2 ≤ (q :: ps).count q := h.resolve_left hl
          rw [List.count_cons_self] at h2
          refine ⟨q, List.count_pos_iff.1 (by omega), .inl ?_⟩
          rw [lit_flip q q hfb]; simp [hl]
        · refine ⟨q, by simpa [e] using hq, ?_⟩
          rw [lit_flip p q hfb]
          simpa [e, List.count_cons, Ne.symm e] using h

theorem count_rowPixels (W x0 py : Nat) (row : Byte) (p : Pixel) :
    (rowPixels W x0 py row).count p =
      (List.range 8).countP fun c => row.getLsbD (7 - c) && ((py, (x0 + c) % W) : Pixel) == p := by
  rw [rowPixels, List.count, List.countP_filterMap]
  congr 1
  funext c
  cases row.getLsbD (7 - c) <;> simp

/-- How often a sprite's set bits fall on a pixel, counted over its rows and columns (43_io.md R182). -/
theorem count_spritePixels (W H x0 y : Nat) (rows : List Byte) (p : Pixel) :
    (spritePixels W H x0 y rows).count p =
      (List.range rows.length ×ˢ List.range 8).countP fun rc =>
        (rows[rc.1]?.getD 0#8).getLsbD (7 - rc.2) && (((y + rc.1) % H, (x0 + rc.2) % W) : Pixel) == p := by
  induction rows generalizing y with
  | nil => simp [spritePixels]
  | cons row rows ih =>
    rw [spritePixels, List.count_append, ih, count_rowPixels]
    have hr : List.range (row :: rows).length = 0 :: (List.range rows.length).map Nat.succ := List.range_succ_eq_map
    rw [hr, List.product_cons, List.countP_append, List.countP_map]
    generalize List.range 8 = cs
    congr 1
    have hm : (List.map Nat.succ (List.range rows.length) ×ˢ cs) =
        (List.range rows.length ×ˢ cs).map (Prod.map Nat.succ id) := by
      simp only [SProd.sprod, List.product, List.flatMap_map, List.map_flatMap, List.map_map]; rfl
    rw [hm, List.countP_map]
    congr 1
    funext rc
    simp [Nat.add_assoc, Nat.add_comm 1, Nat.succ_eq_add_one]

end Sys2Proof.Machine
end

