-- ==== Sys2Proof/Laws/Memory.lean ====
section
/-! SUPPORT. The laws of memory: a read after a write, a write leaves every other byte alone, and every write keeps the
canonical form. -/

namespace Sys2Proof.Machine

@[simp] theorem read_nil (g : Glyphs) (a : Nat) : Memory.read g [] a = resetByte g a := rfl

theorem listed_eq_none {m : Memory} {a : Nat} (h : ∀ c ∈ m, a ≠ c.1) : Memory.listed m a = none := by
  induction m with
  | nil => rfl
  | cons c m ih =>
    simp only [Memory.listed]
    rw [if_neg (h c (by simp)), ih fun d hd => h d (by simp [hd])]

/-- What the list holds at a below its first address: nothing. -/
theorem listed_below {c : Host.Cell} {m : Memory} {a : Nat}
    (hm : List.Pairwise (fun c d : Host.Cell => c.1 < d.1) (c :: m)) (h : a < c.1) : Memory.listed (c :: m) a = none := by
  refine listed_eq_none fun d hd => ?_
  rcases List.mem_cons.1 hd with rfl | hd
  · omega
  · have := (List.pairwise_cons.1 hm).1 d hd; omega

/-- A byte reads as what was last written to it. -/
theorem read_write_same {g : Glyphs} {m : Memory} (a : Nat) (v : Byte)
    (hm : List.Pairwise (fun c d : Host.Cell => c.1 < d.1) m) : Memory.read g (Memory.write g m a v) a = v := by
  induction m with
  | nil =>
    simp only [Memory.write]
    split
    · next h => simp [h]
    · simp [Memory.read, Memory.listed]
  | cons c m ih =>
    obtain ⟨k, b⟩ := c
    simp only [Memory.write]
    split
    · next hk =>
      split
      · next h => simp [Memory.read, listed_below hm hk, h]
      · simp [Memory.read, Memory.listed]
    · split
      · next hk =>
        subst hk
        split
        · next h =>
          have : Memory.listed m a = none :=
            listed_eq_none fun d hd => Nat.ne_of_lt ((List.pairwise_cons.1 hm).1 d hd)
          simp [Memory.read, this, h]
        · simp [Memory.read, Memory.listed]
      · next hne =>
        have := ih (List.pairwise_cons.1 hm).2
        simpa [Memory.read, Memory.listed, hne] using this

/-- A write leaves every other byte alone. -/
theorem read_write_ne {g : Glyphs} (m : Memory) {a b : Nat} (v : Byte) (h : b ≠ a) :
    Memory.read g (Memory.write g m a v) b = Memory.read g m b := by
  induction m with
  | nil =>
    simp only [Memory.write]
    split
    · rfl
    · simp [Memory.read, Memory.listed, h]
  | cons c m ih =>
    obtain ⟨k, w⟩ := c
    simp only [Memory.write]
    split
    · split
      · rfl
      · simp [Memory.read, Memory.listed, h]
    · split
      · next hk =>
        subst hk
        split
        · simp [Memory.read, Memory.listed, h]
        · simp [Memory.read, Memory.listed, h]
      · by_cases hb : b = k
        · simp [Memory.read, Memory.listed, hb]
        · simpa [Memory.read, Memory.listed, hb] using ih

theorem read_write {g : Glyphs} {m : Memory} (a b : Nat) (v : Byte) (hm : Memory.wf g m) :
    Memory.read g (Memory.write g m a v) b = if b = a then v else Memory.read g m b := by
  split
  · next h => subst h; exact read_write_same b v hm.1
  · next h => exact read_write_ne m v h

/-- Every cell of a memory after a write was there before or is the written one, which differs from the reset contents. -/
theorem mem_write {g : Glyphs} {m : Memory} {a : Nat} {v : Byte} {c : Host.Cell} (hc : c ∈ Memory.write g m a v) :
    c ∈ m ∨ c = (a, v) ∧ v ≠ resetByte g a := by
  induction m with
  | nil =>
    simp only [Memory.write] at hc
    split at hc
    · simp at hc
    · next h => exact .inr ⟨by simpa using hc, h⟩
  | cons d m ih =>
    obtain ⟨k, b⟩ := d
    simp only [Memory.write] at hc
    split at hc
    · split at hc
      · exact .inl hc
      · next h => rcases List.mem_cons.1 hc with rfl | hc; exacts [.inr ⟨rfl, h⟩, .inl hc]
    · split at hc
      · split at hc
        · exact .inl (List.mem_cons_of_mem _ hc)
        · next h =>
          rcases List.mem_cons.1 hc with rfl | hc
          exacts [.inr ⟨rfl, h⟩, .inl (List.mem_cons_of_mem _ hc)]
      · rcases List.mem_cons.1 hc with rfl | hc
        · exact .inl (by simp)
        · rcases ih hc with h | h
          exacts [.inl (List.mem_cons_of_mem _ h), .inr h]

theorem write_sorted {g : Glyphs} {m : Memory} (a : Nat) (v : Byte)
    (hm : List.Pairwise (fun c d : Host.Cell => c.1 < d.1) m) :
    List.Pairwise (fun c d : Host.Cell => c.1 < d.1) (Memory.write g m a v) := by
  induction m with
  | nil => simp only [Memory.write]; split <;> simp
  | cons c m ih =>
    obtain ⟨k, b⟩ := c
    have hm' := List.pairwise_cons.1 hm
    simp only [Memory.write]
    split
    · next hk =>
      split
      · exact hm
      · refine List.pairwise_cons.2 ⟨fun d hd => ?_, hm⟩
        rcases List.mem_cons.1 hd with rfl | hd
        · exact hk
        · exact Nat.lt_trans hk (hm'.1 d hd)
    · split
      · next hk =>
        subst hk
        split
        · exact hm'.2
        · exact List.pairwise_cons.2 ⟨hm'.1, hm'.2⟩
      · refine List.pairwise_cons.2 ⟨fun d hd => ?_, ih hm'.2⟩
        rcases mem_write hd with h | ⟨rfl, -⟩
        · exact hm'.1 d h
        · show k < a; omega

/-- A write inside memory keeps the canonical form. -/
theorem write_wf {g : Glyphs} {m : Memory} {a : Nat} (v : Byte) (hm : Memory.wf g m) (ha : a < Config.memSize) :
    Memory.wf g (Memory.write g m a v) := by
  refine ⟨write_sorted a v hm.1, fun c hc => ?_⟩
  rcases mem_write hc with h | ⟨rfl, h⟩
  · exact hm.2 c h
  · exact ⟨ha, h⟩

theorem nil_wf (g : Glyphs) : Memory.wf g [] := by simp [Memory.wf]

@[simp] theorem readRange_length (g : Glyphs) (m : Memory) (a n : Nat) : (Memory.readRange g m a n).length = n := by
  induction n generalizing a with
  | zero => rfl
  | succ n ih => simp [Memory.readRange, ih]

/-- Byte k of a range is the byte at a + k. -/
theorem readRange_getElem (g : Glyphs) (m : Memory) (a n k : Nat) (h : k < (Memory.readRange g m a n).length) :
    (Memory.readRange g m a n)[k] = Memory.read g m (a + k) := by
  induction n generalizing a k with
  | zero => simp at h
  | succ n ih =>
    cases k with
    | zero => rfl
    | succ k =>
      simp only [Memory.readRange, List.getElem_cons_succ]
      rw [ih, show a + 1 + k = a + (k + 1) by omega]

/-- Writing a range keeps the canonical form, when the range is inside memory. -/
theorem writeRange_wf {g : Glyphs} {m : Memory} {a : Nat} {bs : List Byte} (hm : Memory.wf g m)
    (h : bs = [] ∨ a + bs.length ≤ Config.memSize) : Memory.wf g (Memory.writeRange g m a bs) := by
  induction bs generalizing m a with
  | nil => exact hm
  | cons b bs ih =>
    have h' : a + (bs.length + 1) ≤ Config.memSize := by simpa using h
    refine ih (write_wf b hm (by omega)) (.inr (by omega))

/-- Writing a range leaves every byte outside it alone. -/
theorem read_writeRange_outside {g : Glyphs} (m : Memory) {a b : Nat} (bs : List Byte)
    (h : b < a ∨ a + bs.length ≤ b) : Memory.read g (Memory.writeRange g m a bs) b = Memory.read g m b := by
  induction bs generalizing m a with
  | nil => rfl
  | cons v bs ih =>
    simp only [List.length_cons] at h
    simp only [Memory.writeRange]
    rw [ih _ (by omega), read_write_ne _ _ (by omega)]

/-- Writing a range puts byte k of the sequence at a + k. -/
theorem read_writeRange_inside {g : Glyphs} {m : Memory} (a : Nat) (bs : List Byte) (k : Nat) (hk : k < bs.length)
    (hm : Memory.wf g m) (h : a + bs.length ≤ Config.memSize) :
    Memory.read g (Memory.writeRange g m a bs) (a + k) = bs[k] := by
  induction bs generalizing m a k with
  | nil => simp at hk
  | cons v bs ih =>
    simp only [List.length_cons] at h hk
    have hm' := write_wf (a := a) v hm (by omega)
    cases k with
    | zero =>
      simp only [Memory.writeRange, Nat.add_zero, List.getElem_cons_zero]
      rw [read_writeRange_outside _ _ (by omega), read_write_same a v hm.1]
    | succ k =>
      simp only [Memory.writeRange, List.getElem_cons_succ]
      rw [show a + (k + 1) = a + 1 + k by omega]
      exact ih (a + 1) k (by omega) hm' (by omega)

end Sys2Proof.Machine
end

