-- ==== Sys2Proof/Laws/Ops.lean ====
section
/-! SUPPORT. One lemma per shared operation that says everything it can do; later proofs cite these and unfold none. -/

namespace Sys2Proof.Machine

/-! ### Memory access (00_scope.md R11) -/

theorem memRead_eq (s : State) (addr n : Nat) :
    s.memRead addr n = if n = 0 ∨ addr + n - 1 ≤ 4095 then some (s.mem.readRange s.cfg.glyphs addr n) else none := rfl

/-- A read that succeeds is inside memory and gives the n bytes in ascending order. -/
theorem memRead_some {s : State} {addr n : Nat} {bs : List Byte} (h : s.memRead addr n = some bs) :
    (n = 0 ∨ addr + n ≤ 4096) ∧ bs.length = n ∧
      ∀ (k : Nat) (hk : k < bs.length), bs[k] = s.readByte (addr + k) := by
  rw [memRead_eq] at h
  split at h
  · next hb =>
    simp only [Option.some.injEq] at h
    subst h
    exact ⟨by omega, by simp, fun k hk => readRange_getElem _ _ _ _ _ hk⟩
  · simp at h

theorem memRead_none {s : State} {addr n : Nat} : s.memRead addr n = none ↔ 0 < n ∧ 4096 < addr + n := by
  rw [memRead_eq]
  split
  · simp; omega
  · simp; omega

/-- A write that succeeds is inside memory and changes only memory: byte k goes to addr + k, every other byte stays, and
the canonical form is kept. -/
theorem memWrite_some {s t : State} {addr : Nat} {bytes : List Byte} (h : s.memWrite addr bytes = some t) :
    (bytes = [] ∨ addr + bytes.length ≤ 4096) ∧
    t = { s with mem := s.mem.writeRange s.cfg.glyphs addr bytes } ∧
    (∀ a, a < addr ∨ addr + bytes.length ≤ a → t.readByte a = s.readByte a) ∧
    (Memory.wf s.cfg.glyphs s.mem → Memory.wf t.cfg.glyphs t.mem ∧
      ∀ (k : Nat) (hk : k < bytes.length), t.readByte (addr + k) = bytes[k]) := by
  unfold State.memWrite at h
  split at h
  · next hb =>
    simp only [Option.some.injEq] at h
    subst h
    have hb' : bytes = [] ∨ addr + bytes.length ≤ 4096 := by
      rcases bytes with - | ⟨b, bs⟩
      · exact .inl rfl
      · right; simp only [inBounds, List.length_cons] at hb ⊢; omega
    refine ⟨hb', rfl, fun a ha => read_writeRange_outside _ _ ha, fun hm => ⟨writeRange_wf hm hb', fun k hk => ?_⟩⟩
    refine read_writeRange_inside _ _ k hk hm (hb'.resolve_left ?_)
    rintro rfl; simp at hk
  · simp at h

theorem memWrite_none {s : State} {addr : Nat} {bytes : List Byte} :
    s.memWrite addr bytes = none ↔ 0 < bytes.length ∧ 4096 < addr + bytes.length := by
  unfold State.memWrite
  simp only [inBounds]
  split
  · simp; omega
  · simp only [true_iff]; omega

/-! ### Registers -/

/-- Register j after a sequence of register writes. -/
theorem writeRegs_getElem (x : Vector Byte 16) (k : Nat) (bs : List Byte) (j : Nat) (hj : j < 16) :
    (writeRegs x k bs)[j] = if h : k ≤ j ∧ j < k + bs.length then bs[j - k] else x[j] := by
  induction bs generalizing x k with
  | nil => simp [writeRegs]
  | cons b bs ih =>
    have hy : (if h : k < 16 then x.set k b h else x)[j] = if k = j then b else x[j] := by
      split
      · rw [Vector.getElem_set]
      · rw [if_neg (by omega)]
    simp only [writeRegs]
    rw [ih, hy]
    simp only [List.length_cons]
    by_cases h1 : k + 1 ≤ j ∧ j < k + 1 + bs.length
    · have : j - k = (j - (k + 1)) + 1 := by omega
      rw [dif_pos h1, dif_pos (by omega)]
      simp [this]
    · rw [dif_neg h1]
      by_cases hk : k = j
      · rw [if_pos hk, dif_pos (by omega)]
        simp [hk]
      · rw [if_neg hk, dif_neg (by omega)]

@[simp] theorem regsUpTo_length (s : State) (X : Reg) : (s.regsUpTo X).length = X.val + 1 := by
  have := X.isLt
  simp [State.regsUpTo]

theorem regsUpTo_getElem (s : State) (X : Reg) (k : Nat) (h : k < (s.regsUpTo X).length) (h' : k < 16) :
    (s.regsUpTo X)[k] = s.reg ⟨k, h'⟩ := by
  simp [State.regsUpTo, State.reg]

@[simp] theorem bcdDigits_length (v : Byte) : (bcdDigits v).length = 3 := rfl

/-- LD_B stores three bytes and LD_MEM_VX one byte for each of x[0] .. x[X]. -/
@[simp] theorem storedBytes_ldB_length (s : State) (X : Reg) : (storedBytes s (.ldB X)).length = 3 := rfl

@[simp] theorem storedBytes_ldMemVx_length (s : State) (X : Reg) : (storedBytes s (.ldMemVx X)).length = X.val + 1 :=
  regsUpTo_length s X

/-! ### The call stack (10_state.md R26, R27) -/

theorem push_some {s t : State} {v : Word} (h : s.push v = some t) :
    ∃ hs : s.sp.val < 16, t = { s with stack := s.stack.set s.sp.val v hs, sp := ⟨s.sp.val + 1, by omega⟩ } := by
  unfold State.push at h
  split at h
  · next hs => exact ⟨hs, by simpa using h.symm⟩
  · simp at h

theorem push_none {s : State} {v : Word} : s.push v = none ↔ s.sp.val = 16 := by
  have := s.sp.isLt
  unfold State.push
  split
  · simp; omega
  · simp; omega

theorem pop_some {s t : State} {v : Word} (h : s.pop = some (v, t)) :
    ∃ hs : 0 < s.sp.val ∧ s.sp.val - 1 < 16,
      v = s.stack[s.sp.val - 1]'hs.2 ∧ t = { s with sp := ⟨s.sp.val - 1, by omega⟩ } := by
  have := s.sp.isLt
  unfold State.pop at h
  split at h
  · next hs =>
    simp only [Option.some.injEq, Prod.mk.injEq] at h
    exact ⟨⟨hs, by omega⟩, h.1.symm, h.2.symm⟩
  · simp at h

theorem pop_none {s : State} : s.pop = none ↔ s.sp.val = 0 := by
  unfold State.pop
  split
  · simp; omega
  · simp; omega

/-! ### Fetch and decode (30_encoding.md R73, R83, R84) -/

theorem fetch_eq (s : State) :
    s.fetch = if s.pc.toNat ≤ 4094 then some (wordOfBytes (s.readByte s.pc.toNat) (s.readByte (s.pc.toNat + 1))) else none := by
  unfold State.fetch
  simp only [inBounds]
  split
  · rw [if_pos (by omega)]
  · rw [if_neg (by omega)]

theorem fetch_none {s : State} : s.fetch = none ↔ 4094 < s.pc.toNat := by
  rw [fetch_eq]; split <;> simp <;> omega

/-- The decoder's only answer beside an instruction is unmatched. -/
theorem decode_error {sj : Bool} {w : Word} {r : Reject} (h : decode sj w = .error r) : r = .unmatched := by
  cases r with
  | unmatched => rfl
  | truncated =>
    unfold decode decodeNibbles decodeGroup0 decodeGroup8 decodeGroupE decodeGroupF at h
    repeat' split at h
    all_goals simp at h

/-- The three things fetch and decode can come to. -/
theorem fetchDecode_cases (s : State) :
    (s.fetch = none ∧ s.fetchDecode = .stop (s.enterFault .outOfBoundsAddress none)) ∨
    (∃ w, s.fetch = some w ∧ decode s.cfg.sysJump w = .error .unmatched ∧
      s.fetchDecode = .stop (s.enterFault .unmatchedOpcode (some w))) ∨
    (∃ w i, s.fetch = some w ∧ decode s.cfg.sysJump w = .ok i ∧ s.fetchDecode = .run i) := by
  unfold State.fetchDecode
  cases hf : s.fetch with
  | none => exact .inl ⟨rfl, rfl⟩
  | some w =>
    cases hd : decode s.cfg.sysJump w with
    | error r => exact .inr (.inl ⟨w, rfl, by rw [hd, decode_error hd], by simp [hd]⟩)
    | ok i => exact .inr (.inr ⟨w, i, rfl, hd, by simp [hd]⟩)

/-- The fetch depends on pc, memory and the glyph table alone. -/
theorem fetch_congr {s t : State} (hp : t.pc = s.pc) (hm : ∀ a, t.readByte a = s.readByte a) : t.fetch = s.fetch := by
  rw [fetch_eq, fetch_eq, hp, hm, hm]

/-! ### The step (30_encoding.md R70 to R72) -/

theorem step_awaiting {s : State} {X : Reg} (h : s.engine = .awaitingKey X) : step s = .next s := by simp [step, h]

theorem step_faulted {s : State} {r : FaultRecord} (h : s.engine = .faulted r) : step s = .next s := by simp [step, h]

/-- Everything a step can do. -/
theorem step_cases (s : State) :
    (s.engine ≠ .running ∧ step s = .next s) ∨
    (s.engine = .running ∧ s.fetch = none ∧ step s = .next (s.enterFault .outOfBoundsAddress none)) ∨
    (s.engine = .running ∧ ∃ w, s.fetch = some w ∧ decode s.cfg.sysJump w = .error .unmatched ∧
      step s = .next (s.enterFault .unmatchedOpcode (some w))) ∨
    (s.engine = .running ∧ ∃ w i, s.fetch = some w ∧ decode s.cfg.sysJump w = .ok i ∧ step s = exec i s) := by
  cases he : s.engine with
  | awaitingKey X => exact .inl ⟨by simp, step_awaiting he⟩
  | faulted r => exact .inl ⟨by simp, step_faulted he⟩
  | running =>
    right
    rcases fetchDecode_cases s with ⟨h, e⟩ | ⟨w, h, hd, e⟩ | ⟨w, i, h, hd, e⟩
    · exact .inl ⟨rfl, h, by simp [step, he, e]⟩
    · exact .inr (.inl ⟨rfl, w, h, hd, by simp [step, he, e]⟩)
    · exact .inr (.inr ⟨rfl, w, i, h, hd, by simp [step, he, e]⟩)

/-! ### What is left unchanged -/

/-- The frame, part by part: simp with this lemma leaves only the parts outside the list. -/
theorem keepsAllBut_iff {c : List Part} {s t : State} : KeepsAllBut c s t ↔
    (.cfg ∉ c → t.cfg = s.cfg) ∧ (.regs ∉ c → ∀ r : Reg, t.reg r = s.reg r) ∧ (.I ∉ c → t.I = s.I) ∧
    (.pc ∉ c → t.pc = s.pc) ∧ (.stack ∉ c → t.stack = s.stack) ∧ (.sp ∉ c → t.sp = s.sp) ∧
    (.engine ∉ c → t.engine = s.engine) ∧ (.memory ∉ c → ∀ a : Nat, t.readByte a = s.readByte a) ∧
    (.fb ∉ c → t.fb = s.fb) ∧ (.DT ∉ c → t.DT = s.DT) ∧ (.ST ∉ c → t.ST = s.ST) ∧ (.keys ∉ c → t.keys = s.keys) ∧
    (.random ∉ c → t.randomIn = s.randomIn ∧ t.randomCount = s.randomCount) := by
  constructor
  · exact fun h => ⟨h .cfg, h .regs, h .I, h .pc, h .stack, h .sp, h .engine, h .memory, h .fb, h .DT, h .ST, h .keys,
      h .random⟩
  · rintro ⟨h1, h2, h3, h4, h5, h6, h7, h8, h9, h10, h11, h12, h13⟩ p
    cases p
    exacts [h1, h2, h3, h4, h5, h6, h7, h8, h9, h10, h11, h12, h13]

/-- Fault entry changes the engine state alone (60_exceptions.md R212, R213). -/
theorem enterFault_entersFault (s : State) (k : FaultKind) (w : Option Word) : EntersFault k w s (s.enterFault k w) :=
  ⟨rfl, by simp [keepsAllBut_iff]⟩

end Sys2Proof.Machine
end

