-- ==== Sys2Proof/Laws/Shapes.lean ====
section
/-! SUPPORT. One lemma per shape of instruction: what advancing past a register write, a result and flag, a conditional skip
or a jump comes to, in the terms of Sys2Proof/Safety.lean. -/

namespace Sys2Proof.Machine

theorem writesOnlyReg_setReg (s : State) (X : Reg) (v : Byte) :
    WritesOnlyReg X v s ((s.setReg X v).applyEffect .next) :=
  ⟨by simp, fun r h => by simp [setReg_reg_ne _ _ h], by simp, by simp [keepsAllBut_iff]⟩

theorem writesResultAndFlag_writeDestAndFlag (s : State) (X : Reg) (r f : Byte) :
    WritesResultAndFlag X r.toNat f.toNat s ((s.writeDestAndFlag X r f).applyEffect .next) := by
  refine ⟨fun h => ?_, fun h => ?_, fun q h1 h2 => ?_, by simp, by simp [keepsAllBut_iff]⟩
  · cases hf : s.cfg.flagOrder <;> simp [writeDestAndFlag_reg, hf, h, Ne.symm h]
  · subst h
    cases hf : s.cfg.flagOrder <;> simp [writeDestAndFlag_reg, hf]
  · cases hf : s.cfg.flagOrder <;> simp [writeDestAndFlag_reg, hf, h1, h2]

theorem skipsIf_skipIf (s : State) (c : Bool) (p : Prop) (h : c = true ↔ p) :
    SkipsIf p s (s.applyEffect (skipIf c)) := by
  refine ⟨fun hp => by simp [h.2 hp], fun hp => ?_, by simp [keepsAllBut_iff]⟩
  obtain rfl : c = false := by simpa using fun hc => hp (h.1 hc)
  rfl

theorem jumpsTo_jump (s : State) (t : Word) : JumpsTo t.toNat s (s.applyEffect (.jump t)) :=
  ⟨by simp, by simp [keepsAllBut_iff]⟩

/-- Raising a fault enters it with the instruction's own word. -/
theorem raise_entersFault (k : FaultKind) (i : Instr) (s : State) :
    ∃ t, raise k i s = .next t ∧ EntersFault k (some (encode i)) s t :=
  ⟨_, rfl, enterFault_entersFault s k _⟩

/-! ### Sprites -/

/-- The set bits of the sprite at I that fall on a pixel are the times the blit flips it. -/
theorem spriteHits_eq {s : State} {N : Nat} {rows : List Byte} (h : s.memRead s.I.toNat N = some rows) (x0 y0 : Nat)
    (p : Pixel) : SpriteHits s x0 y0 N p = (spritePixels s.cfg.fbW s.cfg.fbH x0 y0 rows).count p := by
  obtain ⟨-, hl, hb⟩ := memRead_some h
  rw [count_spritePixels, hl, SpriteHits]
  refine List.countP_congr fun rc hrc => ?_
  have hr : rc.1 < rows.length := by
    have := (List.mem_product.1 hrc).1
    rw [hl]; exact List.mem_range.1 this
  simp [SpriteBit, SpritePixel, List.getElem?_eq_getElem hr, hb rc.1 hr]

/-- A drawn sprite, pixel by pixel and in its flag (43_io.md R182, R183). -/
theorem drawSprite_spec {s : State} {N : Nat} {rows : List Byte} (hfb : List.Pairwise Pixel.before s.fb)
    (h : s.memRead s.I.toNat N = some rows) (x0 y0 : Byte) :
    (∀ p : Pixel, (s.drawSprite x0 y0 rows).fb.lit p =
      (s.fb.lit p ^^ decide (SpriteHits s x0.toNat y0.toNat N p % 2 = 1))) ∧
    ((s.drawSprite x0 y0 rows).reg flagReg = 1#8 ∨ (s.drawSprite x0 y0 rows).reg flagReg = 0#8) ∧
    ((s.drawSprite x0 y0 rows).reg flagReg = 1#8 ↔ ∃ p : Pixel, 1 ≤ SpriteHits s x0.toNat y0.toNat N p ∧
      (s.fb.lit p = true ∨ 2 ≤ SpriteHits s x0.toNat y0.toNat N p)) ∧
    (∀ r : Reg, r ≠ flagReg → (s.drawSprite x0 y0 rows).reg r = s.reg r) := by
  have hflag : (s.drawSprite x0 y0 rows).reg flagReg =
      flagByte (xorBlit s.cfg.fbW s.cfg.fbH s.fb x0 y0 rows).2 := by simp only [State.drawSprite, setReg_reg_same]
  refine ⟨fun p => ?_, ?_, ?_, fun r hr => ?_⟩
  · rw [drawSprite_fb, xorBlit, lit_flipPixels p hfb, spriteHits_eq h]
  · rw [hflag]
    cases (xorBlit s.cfg.fbW s.cfg.fbH s.fb x0 y0 rows).2 <;> simp [flagByte]
  · have hc : flagByte (xorBlit s.cfg.fbW s.cfg.fbH s.fb x0 y0 rows).2 = 1#8 ↔
        (xorBlit s.cfg.fbW s.cfg.fbH s.fb x0 y0 rows).2 = true := by
      cases (xorBlit s.cfg.fbW s.cfg.fbH s.fb x0 y0 rows).2 <;> simp [flagByte]
    rw [hflag, hc, xorBlit, flipPixels_collision hfb]
    simp only [Bool.false_eq_true, false_or, spriteHits_eq h, Nat.succ_le_iff, List.count_pos_iff]
  · simp only [State.drawSprite, setReg_reg_ne _ _ hr]; rfl

end Sys2Proof.Machine
end

