-- ==== Sys2Proof/Laws/Exec.lean ====
section
/-! SUPPORT. What executing an instruction can come to, over all instructions: a fault with its cause, or a completed handler
and the effect it hands to the engine. -/

namespace Sys2Proof.Machine

/-- The faults an instruction's own handler raises and when (60_exceptions.md R211). -/
def Raises (i : Instr) (s : State) (k : FaultKind) : Prop :=
  (k = .stackUnderflow ∧ i = .ret ∧ s.sp.val = 0) ∨
  (k = .stackOverflow ∧ (∃ NNN, i = .call NNN) ∧ s.sp.val = 16) ∨
  (k = .unmatchedOpcode ∧ (∃ NNN, i = .sys NNN) ∧ s.cfg.sysJump = false) ∨
  (k = .outOfBoundsAddress ∧
    ((∃ X Y N, i = .drw X Y N ∧ 0 < N.val ∧ 4096 < s.I.toNat + N.val) ∨
     (∃ X, i = .ldB X ∧ 4096 < s.I.toNat + 3) ∨
     (∃ X, i = .ldMemVx X ∧ 4096 < s.I.toNat + (X.val + 1)) ∨
     (∃ X, i = .ldVxMem X ∧ 4096 < s.I.toNat + (X.val + 1))))

/-- The effect a completed handler may hand to the engine: Jump for the jumps, its target below 4351 but for RET, Suspend
for LD_VX_K, Skip for the skips, Next for every other (30_encoding.md R85, 40_control_flow.md R109). -/
def MayAnswer (i : Instr) : Effect → Prop
  | .next => isJump i = false ∧ ∀ X, i ≠ .ldVxK X
  | .skip => isSkip i = true
  | .jump t => isJump i = true ∧ (i = .ret ∨ t.toNat ≤ 4350)
  | .suspend X => i = .ldVxK X

theorem mayAnswer_jump {i : Instr} (NNN : Addr) (h : isJump i = true) : MayAnswer i (.jump (absoluteTarget NNN)) :=
  ⟨h, .inr (by rw [absoluteTarget_toNat]; have := NNN.isLt; omega)⟩

/-- Everything an instruction can come to: its handler raises a fault, and nothing else happens; or it completes in a state
u with pc and engine as before, and its effect is applied to u. -/
theorem exec_cases {i : Instr} {s t : State} (h : exec i s = .next t) :
    (∃ k, t = s.enterFault k (some (encode i)) ∧ Raises i s k) ∨
    (∃ (e : Effect) (u : State), t = u.applyEffect e ∧ MayAnswer i e ∧ u.pc = s.pc ∧ u.engine = s.engine ∧ u.cfg = s.cfg ∧
      u.keys = s.keys ∧ ∀ k, ¬Raises i s k) := by
  cases i
  case ret =>
    simp only [exec, execRet] at h
    cases hp : s.pop with
    | none =>
      simp only [hp, raise, Host.Outcome.next.injEq] at h
      exact .inl ⟨_, h.symm, .inl ⟨rfl, rfl, pop_none.1 hp⟩⟩
    | some p =>
      simp only [hp, finish, Host.Outcome.next.injEq] at h
      obtain ⟨hs, -, hu⟩ := pop_some (t := p.2) (v := p.1) hp
      refine .inr ⟨_, _, h.symm, ⟨rfl, .inl rfl⟩, by rw [hu], by rw [hu], by rw [hu], by rw [hu], ?_⟩
      simp only [Raises]; simp; omega
  case call NNN =>
    simp only [exec, execCall] at h
    cases hp : s.push s.pc with
    | none =>
      simp only [hp, raise, Host.Outcome.next.injEq] at h
      exact .inl ⟨_, h.symm, .inr (.inl ⟨rfl, ⟨NNN, rfl⟩, push_none.1 hp⟩)⟩
    | some u =>
      simp only [hp, finish, Host.Outcome.next.injEq] at h
      obtain ⟨hs, rfl⟩ := push_some hp
      refine .inr ⟨_, _, h.symm, mayAnswer_jump NNN rfl, rfl, rfl, rfl, rfl, ?_⟩
      simp only [Raises]; simp; omega
  case sys NNN =>
    simp only [exec, execSys] at h
    split at h
    · next hj =>
      simp only [finish, Host.Outcome.next.injEq] at h
      exact .inr ⟨_, _, h.symm, mayAnswer_jump NNN rfl, rfl, rfl, rfl, rfl, by simp [Raises, hj]⟩
    · next hj =>
      simp only [raise, Host.Outcome.next.injEq] at h
      exact .inl ⟨_, h.symm, .inr (.inr (.inl ⟨rfl, ⟨NNN, rfl⟩, by simpa using hj⟩))⟩
  case ldB X =>
    simp only [exec, execLdB] at h
    cases hp : s.memWrite s.I.toNat (bcdDigits (s.reg X)) with
    | none =>
      simp only [hp, raise, Host.Outcome.next.injEq] at h
      exact .inl ⟨_, h.symm, .inr (.inr (.inr ⟨rfl, .inr (.inl ⟨X, rfl, (memWrite_none.1 hp).2⟩)⟩))⟩
    | some u =>
      simp only [hp, finish, Host.Outcome.next.injEq] at h
      obtain ⟨hb, rfl, -⟩ := memWrite_some hp
      refine .inr ⟨_, _, h.symm, ⟨rfl, by simp⟩, rfl, rfl, rfl, rfl, ?_⟩
      have : s.I.toNat + 3 ≤ 4096 := by simpa [bcdDigits] using hb
      simp only [Raises]; simp; omega
  case ldMemVx X =>
    simp only [exec, execLdMemVx] at h
    cases hp : s.memWrite s.I.toNat (s.regsUpTo X) with
    | none =>
      simp only [hp, raise, Host.Outcome.next.injEq] at h
      have := (memWrite_none.1 hp).2
      rw [regsUpTo_length] at this
      exact .inl ⟨_, h.symm, .inr (.inr (.inr ⟨rfl, .inr (.inr (.inl ⟨X, rfl, this⟩))⟩))⟩
    | some u =>
      simp only [hp, finish, Host.Outcome.next.injEq] at h
      obtain ⟨hb, rfl, -⟩ := memWrite_some hp
      refine .inr ⟨_, _, h.symm, ⟨rfl, by simp⟩, rfl, rfl, rfl, rfl, ?_⟩
      have hl := regsUpTo_length s X
      have : s.I.toNat + (X.val + 1) ≤ 4096 := by
        rcases hb with hb | hb
        · simp [hb] at hl
        · omega
      simp only [Raises]; simp; omega
  case ldVxMem X =>
    simp only [exec, execLdVxMem] at h
    cases hp : s.memRead s.I.toNat (X.val + 1) with
    | none =>
      simp only [hp, raise, Host.Outcome.next.injEq] at h
      exact .inl ⟨_, h.symm, .inr (.inr (.inr ⟨rfl, .inr (.inr (.inr ⟨X, rfl, (memRead_none.1 hp).2⟩))⟩))⟩
    | some bs =>
      simp only [hp, finish, Host.Outcome.next.injEq] at h
      obtain ⟨hb, -, -⟩ := memRead_some hp
      refine .inr ⟨_, _, h.symm, ⟨rfl, by simp⟩, rfl, rfl, rfl, rfl, ?_⟩
      simp only [Raises]; simp; omega
  case drw X Y N =>
    simp only [exec, execDrw] at h
    cases hp : s.memRead s.I.toNat N.val with
    | none =>
      simp only [hp, raise, Host.Outcome.next.injEq] at h
      exact .inl ⟨_, h.symm, .inr (.inr (.inr ⟨rfl, .inl ⟨X, Y, N, rfl, memRead_none.1 hp⟩⟩))⟩
    | some bs =>
      simp only [hp, finish, Host.Outcome.next.injEq] at h
      obtain ⟨hb, -, -⟩ := memRead_some hp
      refine .inr ⟨_, _, h.symm, ⟨rfl, by simp⟩, rfl, rfl, rfl, rfl, ?_⟩
      simp only [Raises]; simp; omega
  case jp NNN => exact .inr ⟨_, _, (Host.Outcome.next.inj h).symm, mayAnswer_jump NNN rfl, rfl, rfl, rfl, rfl, by simp [Raises]⟩
  case jpV0 NNN =>
    refine .inr ⟨_, _, (Host.Outcome.next.inj h).symm, ⟨rfl, .inr ?_⟩, rfl, rfl, rfl, rfl, by simp [Raises]⟩
    rw [offsetTarget_toNat]; have := NNN.isLt; have := (s.reg 0).isLt; omega
  case ldVxK X => exact .inr ⟨_, _, (Host.Outcome.next.inj h).symm, rfl, rfl, rfl, rfl, rfl, by simp [Raises]⟩
  case seImm X KK | sneImm X KK | seReg X Y | sneReg X Y | skp X | sknp X =>
    refine .inr ⟨_, s, (Host.Outcome.next.inj h).symm, ?_, rfl, rfl, rfl, rfl, by simp [Raises]⟩
    rw [skipIf]; split
    · exact rfl
    · exact ⟨rfl, by simp⟩
  all_goals
    refine .inr ⟨_, _, (Host.Outcome.next.inj h).symm, ⟨rfl, by simp⟩, ?_, ?_, ?_, ?_, by simp [Raises]⟩ <;> simp

end Sys2Proof.Machine
end

