-- ==== Sys2Proof/Laws/PerInstr.lean ====
section
/-! SUPPORT. What is proved instruction by instruction. Family RoundTrip: the word the encoder gives a well-formed
instruction decodes to that instruction, with every operand (30_encoding.md R83, R90). -/

namespace Sys2Proof.Laws.RoundTrip

/-- Decoding the encoded instruction gives it back, under every SYS_JUMP that makes it well formed. -/
def Statement (i : Instr) : Prop := ∀ sj : Bool, i.wf sj = true → decode sj (encode i) = .ok i

theorem cls : Statement .cls := fun sj _ => by cases sj <;> rfl

theorem ret : Statement .ret := fun sj _ => by cases sj <;> rfl

theorem sys (NNN : Addr) : Statement (.sys NNN) := fun sj h => by
  simp only [Instr.wf, Bool.and_eq_true, bne_iff_ne, ne_eq] at h
  obtain ⟨⟨rfl, h0⟩, h1⟩ := h
  have key : ∀ f : Nibble, ¬(NNN.extractLsb' 8 4 = 0x0#4 ∧ NNN.extractLsb' 4 4 = 0xE#4 ∧ NNN.extractLsb' 0 4 = f) ∨
      NNN = absoluteAddress 0x0#4 0xE#4 f := fun f => by
    by_cases hf : NNN.extractLsb' 8 4 = 0x0#4 ∧ NNN.extractLsb' 4 4 = 0xE#4 ∧ NNN.extractLsb' 0 4 = f
    · right
      rw [← absoluteAddress_split NNN, hf.1, hf.2.1, hf.2.2]
    · exact .inl hf
  have e0 := (key 0x0#4).resolve_right h0
  have e1 := (key 0xE#4).resolve_right h1
  rw [encode, decode_encodeNNN]
  show decodeGroup0 _ _ _ _ = _
  rw [decodeGroup0, if_neg e0, if_neg e1]
  simp

theorem jp (NNN : Addr) : Statement (.jp NNN) := fun sj _ => by simp [encode, decodeNibbles]

theorem call (NNN : Addr) : Statement (.call NNN) := fun sj _ => by simp [encode, decodeNibbles]

theorem seImm (X : Reg) (KK : Byte) : Statement (.seImm X KK) := fun sj _ => by simp [encode, decodeNibbles]

theorem sneImm (X : Reg) (KK : Byte) : Statement (.sneImm X KK) := fun sj _ => by simp [encode, decodeNibbles]

theorem seReg (X Y : Reg) : Statement (.seReg X Y) := fun sj _ => by simp [encode, decodeNibbles]

theorem ldImm (X : Reg) (KK : Byte) : Statement (.ldImm X KK) := fun sj _ => by simp [encode, decodeNibbles]

theorem addImm (X : Reg) (KK : Byte) : Statement (.addImm X KK) := fun sj _ => by simp [encode, decodeNibbles]

theorem ldReg (X Y : Reg) : Statement (.ldReg X Y) := fun sj _ => by simp [encode, decodeNibbles, decodeGroup8]

theorem bitOr (X Y : Reg) : Statement (.bitOr X Y) := fun sj _ => by simp [encode, decodeNibbles, decodeGroup8]

theorem bitAnd (X Y : Reg) : Statement (.bitAnd X Y) := fun sj _ => by simp [encode, decodeNibbles, decodeGroup8]

theorem bitXor (X Y : Reg) : Statement (.bitXor X Y) := fun sj _ => by simp [encode, decodeNibbles, decodeGroup8]

theorem addReg (X Y : Reg) : Statement (.addReg X Y) := fun sj _ => by simp [encode, decodeNibbles, decodeGroup8]

theorem sub (X Y : Reg) : Statement (.sub X Y) := fun sj _ => by simp [encode, decodeNibbles, decodeGroup8]

theorem shr (X Y : Reg) : Statement (.shr X Y) := fun sj _ => by simp [encode, decodeNibbles, decodeGroup8]

theorem subn (X Y : Reg) : Statement (.subn X Y) := fun sj _ => by simp [encode, decodeNibbles, decodeGroup8]

theorem shl (X Y : Reg) : Statement (.shl X Y) := fun sj _ => by simp [encode, decodeNibbles, decodeGroup8]

theorem sneReg (X Y : Reg) : Statement (.sneReg X Y) := fun sj _ => by simp [encode, decodeNibbles]

theorem ldI (NNN : Addr) : Statement (.ldI NNN) := fun sj _ => by simp [encode, decodeNibbles]

theorem jpV0 (NNN : Addr) : Statement (.jpV0 NNN) := fun sj _ => by simp [encode, decodeNibbles]

theorem rnd (X : Reg) (KK : Byte) : Statement (.rnd X KK) := fun sj _ => by simp [encode, decodeNibbles]

theorem drw (X Y : Reg) (N : Fin 16) : Statement (.drw X Y N) := fun sj _ => by simp [encode, decodeNibbles]

theorem skp (X : Reg) : Statement (.skp X) := fun sj _ => by simp [encode, decodeNibbles, decodeGroupE, immediate]

theorem sknp (X : Reg) : Statement (.sknp X) := fun sj _ => by simp [encode, decodeNibbles, decodeGroupE, immediate]

theorem ldVxDt (X : Reg) : Statement (.ldVxDt X) := fun sj _ => by simp [encode, decodeNibbles, decodeGroupF, immediate]

theorem ldVxK (X : Reg) : Statement (.ldVxK X) := fun sj _ => by simp [encode, decodeNibbles, decodeGroupF, immediate]

theorem ldDtVx (X : Reg) : Statement (.ldDtVx X) := fun sj _ => by simp [encode, decodeNibbles, decodeGroupF, immediate]

theorem ldStVx (X : Reg) : Statement (.ldStVx X) := fun sj _ => by simp [encode, decodeNibbles, decodeGroupF, immediate]

theorem addI (X : Reg) : Statement (.addI X) := fun sj _ => by simp [encode, decodeNibbles, decodeGroupF, immediate]

theorem ldF (X : Reg) : Statement (.ldF X) := fun sj _ => by simp [encode, decodeNibbles, decodeGroupF, immediate]

theorem ldB (X : Reg) : Statement (.ldB X) := fun sj _ => by simp [encode, decodeNibbles, decodeGroupF, immediate]

theorem ldMemVx (X : Reg) : Statement (.ldMemVx X) := fun sj _ => by simp [encode, decodeNibbles, decodeGroupF, immediate]

theorem ldVxMem (X : Reg) : Statement (.ldVxMem X) := fun sj _ => by simp [encode, decodeNibbles, decodeGroupF, immediate]

end Sys2Proof.Laws.RoundTrip
end

