-- ==== Sys2Proof/Tests/Slice0.lean ====
section
/-! SUPPORT. Tests of the model and witnesses of the statements' hypotheses. Words and expected results are those of
spec/30_encoding.md R81, R90 and spec/95_test_vectors.md, whose vector ids (D-, C-, A-, M-, F-, K-, I-) are quoted. -/

namespace Sys2Proof.Tests

open Sys2Proof Sys2Proof.Machine

/-! ### WellFormed: an ill-formed term for each check -/

/-- The word 00E0 is CLS, so SYS never carries it (R93). -/
theorem test_wf_refuses_sys_0E0 : Instr.wf true (.sys 0x0E0#12) = false := by decide

/-- The word 00EE is RET, so SYS never carries it (R93). -/
theorem test_wf_refuses_sys_0EE : Instr.wf true (.sys 0x0EE#12) = false := by decide

/-- With SYS_JUMP false there is no SYS (R101). -/
theorem test_wf_refuses_sys_without_sys_jump : Instr.wf false (.sys 0x123#12) = false := by decide

theorem test_wf_admits_the_rest :
    Instr.wf true (.sys 0x0E1#12) = true ∧ Instr.wf false .cls = true ∧ Instr.wf false (.drw 15 15 0) = true := by decide

/-! ### Decoding: every constructor's word, written out bit by bit from its row's pattern (R81, R90)

Bits are grouped o1 o2 o3 o4; X = 1, Y = 2, KK = 0x35, NNN = 0x235, N = 5. -/

theorem test_decode_cls : decode true 0b0000000011100000#16 = .ok .cls := by decide
theorem test_decode_ret : decode true 0b0000000011101110#16 = .ok .ret := by decide
theorem test_decode_sys : decode true 0b0000001000110101#16 = .ok (.sys 0x235#12) := by decide
theorem test_decode_jp : decode true 0b0001001000110101#16 = .ok (.jp 0x235#12) := by decide
theorem test_decode_call : decode true 0b0010001000110101#16 = .ok (.call 0x235#12) := by decide
theorem test_decode_seImm : decode true 0b0011000100110101#16 = .ok (.seImm 1 0x35#8) := by decide
theorem test_decode_sneImm : decode true 0b0100000100110101#16 = .ok (.sneImm 1 0x35#8) := by decide
theorem test_decode_seReg : decode true 0b0101000100100000#16 = .ok (.seReg 1 2) := by decide
theorem test_decode_ldImm : decode true 0b0110000100110101#16 = .ok (.ldImm 1 0x35#8) := by decide
theorem test_decode_addImm : decode true 0b0111000100110101#16 = .ok (.addImm 1 0x35#8) := by decide
theorem test_decode_ldReg : decode true 0b1000000100100000#16 = .ok (.ldReg 1 2) := by decide
theorem test_decode_bitOr : decode true 0b1000000100100001#16 = .ok (.bitOr 1 2) := by decide
theorem test_decode_bitAnd : decode true 0b1000000100100010#16 = .ok (.bitAnd 1 2) := by decide
theorem test_decode_bitXor : decode true 0b1000000100100011#16 = .ok (.bitXor 1 2) := by decide
theorem test_decode_addReg : decode true 0b1000000100100100#16 = .ok (.addReg 1 2) := by decide
theorem test_decode_sub : decode true 0b1000000100100101#16 = .ok (.sub 1 2) := by decide
theorem test_decode_shr : decode true 0b1000000100100110#16 = .ok (.shr 1 2) := by decide
theorem test_decode_subn : decode true 0b1000000100100111#16 = .ok (.subn 1 2) := by decide
theorem test_decode_shl : decode true 0b1000000100101110#16 = .ok (.shl 1 2) := by decide
theorem test_decode_sneReg : decode true 0b1001000100100000#16 = .ok (.sneReg 1 2) := by decide
theorem test_decode_ldI : decode true 0b1010001000110101#16 = .ok (.ldI 0x235#12) := by decide
theorem test_decode_jpV0 : decode true 0b1011001000110101#16 = .ok (.jpV0 0x235#12) := by decide
theorem test_decode_rnd : decode true 0b1100000100110101#16 = .ok (.rnd 1 0x35#8) := by decide
theorem test_decode_drw : decode true 0b1101000100100101#16 = .ok (.drw 1 2 5) := by decide
theorem test_decode_skp : decode true 0b1110000110011110#16 = .ok (.skp 1) := by decide
theorem test_decode_sknp : decode true 0b1110000110100001#16 = .ok (.sknp 1) := by decide
theorem test_decode_ldVxDt : decode true 0b1111000100000111#16 = .ok (.ldVxDt 1) := by decide
theorem test_decode_ldVxK : decode true 0b1111000100001010#16 = .ok (.ldVxK 1) := by decide
theorem test_decode_ldDtVx : decode true 0b1111000100010101#16 = .ok (.ldDtVx 1) := by decide
theorem test_decode_ldStVx : decode true 0b1111000100011000#16 = .ok (.ldStVx 1) := by decide
theorem test_decode_addI : decode true 0b1111000100011110#16 = .ok (.addI 1) := by decide
theorem test_decode_ldF : decode true 0b1111000100101001#16 = .ok (.ldF 1) := by decide
theorem test_decode_ldB : decode true 0b1111000100110011#16 = .ok (.ldB 1) := by decide
theorem test_decode_ldMemVx : decode true 0b1111000101010101#16 = .ok (.ldMemVx 1) := by decide
theorem test_decode_ldVxMem : decode true 0b1111000101100101#16 = .ok (.ldVxMem 1) := by decide

/-- The unmatched words 95_test_vectors.md section 9 lists, a few of each group. -/
theorem test_decode_unmatched : ([0x5121#16, 0x501F#16, 0x9011#16, 0x8008#16, 0x800F#16, 0xE000#16, 0xE0A0#16, 0xF008#16,
    0xF056#16, 0xFFFF#16].map (decode true)) = List.replicate 10 (.error .unmatched) := by decide

/-- Section 9, the words that are unmatched only with SYS_JUMP false. -/
theorem test_decode_unmatched_without_sys_jump :
    [0x0000#16, 0x0123#16, 0x0FFF#16].map (decode false) = List.replicate 3 (.error .unmatched) := by decide

/-- D-1: the fields of D125. -/
theorem test_fields_of_D125 :
    nibble1 0xD125#16 = 0xD#4 ∧ nibble2 0xD125#16 = 1#4 ∧ nibble3 0xD125#16 = 2#4 ∧ nibble4 0xD125#16 = 5#4 := by decide

/-- An instruction is two bytes: one byte alone is refused by name (R80). -/
theorem test_decode_one_byte_is_truncated : decodeBytes true [0x60#8] = .error .truncated := by decide

/-- The opcode table's numbering: the 16-bit word itself; nothing for an unmatched word. -/
theorem test_table_word : decodeTableWord 16 0x8014 = some (.addReg 0 1) ∧ decodeTableWord 16 0x8018 = none := by decide

/-! ### One step on a small state -/

/-- The next state an outcome holds. -/
def answer : Out → Option State
  | .next t => some t
  | .fault _ => none
  | .refused _ => none

/-- One step of s on the word w, placed at pc. -/
def after (w : Nat) (s : State) : Option State := answer (step (s.withFetchWord 16 w))

/-- The reset state with some registers set. -/
def regs (vs : List (Reg × Byte)) : State := vs.foldl (fun s v => s.setReg v.1 v.2) State.reset

/-- The reset state with I and some registers set. -/
def indexed (I : Word) (vs : List (Reg × Byte)) : State := { regs vs with I := I }

/-- s with bytes stored from an address upward. -/
def stored (a : Nat) (bs : List Byte) (s : State) : State := { s with mem := s.mem.writeRange s.cfg.glyphs a bs }

/-- The reference configuration with FLAG_ORDER = DestThenFlag and SHIFT_SOURCE = Y. -/
def otherConfig : Config := { Config.reference with flagOrder := .destThenFlag, shiftSource := .y }

/-- The fault record of a state, if it is FAULTED. -/
def record (s : State) : Option FaultRecord :=
  match s.engine with
  | .faulted r => some r
  | .running => none
  | .awaitingKey _ => none

/-- x[0], VF and pc of a next state. -/
def view (o : Option State) : Option (Byte × Byte × Word) := o.map fun t => (t.reg 0, t.reg 15, t.pc)

/-- Some bytes of memory of a next state. -/
def bytes (a n : Nat) (o : Option State) : Option (List Byte) := o.map fun t => t.mem.readRange t.cfg.glyphs a n

/-! Fetch, step and faults. -/

/-- D-3: an odd pc is no fault. -/
theorem test_odd_pc : (after 0x6007 { State.reset with pc := 0x201#16 }).map (fun t => (t.reg 0, t.pc)) =
    some (7#8, 0x203#16) := by decide

/-- D-4: the last full word of memory is fetched. -/
theorem test_last_word : (after 0x1200 { State.reset with pc := 0xFFE#16 }).map (·.pc) = some 0x200#16 := by decide

/-- D-5: a fetch at 0xFFF faults with no opcode. -/
theorem test_fetch_at_FFF : (answer (step { State.reset with pc := 0xFFF#16 })).map record =
    some (some { kind := .outOfBoundsAddress, pc := 0xFFF#16, opcode := none }) := by decide

/-- D-12: with SYS_JUMP false 0123 is unmatched. -/
theorem test_unmatched_record :
    (after 0x0123 { State.reset with cfg := { Config.reference with sysJump := false } }).map record =
      some (some { kind := .unmatchedOpcode, pc := 0x200#16, opcode := some 0x0123#16 }) := by decide

/-- I-6: what a run from an empty program comes to, its second step. -/
theorem test_empty_program_faults : (answer (step { State.reset with pc := 0#16 })).map record =
    some (some { kind := .unmatchedOpcode, pc := 0#16, opcode := some 0xF090#16 }) := by decide

/-! Control flow. -/

theorem test_jp : (after 0x1234 State.reset).map (·.pc) = some 0x234#16 := by decide -- C-1
theorem test_sys : (after 0x0300 State.reset).map (·.pc) = some 0x300#16 := by decide -- C-4

/-- C-5. -/
theorem test_call : (after 0x2400 State.reset).map (fun t => (t.stack[0], t.sp.val, t.pc)) =
    some (0x200#16, 1, 0x400#16) := by decide

/-- C-9. -/
theorem test_call_overflow : (after 0x2400 { State.reset with sp := 16 }).map (fun t => (record t, t.sp.val)) =
    some (some { kind := .stackOverflow, pc := 0x200#16, opcode := some 0x2400#16 }, 16) := by decide

/-- C-10. -/
theorem test_ret : (after 0x00EE { State.reset with sp := 1, stack := State.reset.stack.set 0 0xFFE#16 }).map
    (fun t => (t.pc, t.sp.val, t.stack[0])) = some (0x1000#16, 0, 0xFFE#16) := by decide

/-- C-7. -/
theorem test_ret_underflow : (after 0x00EE State.reset).map record =
    some (some { kind := .stackUnderflow, pc := 0x200#16, opcode := some 0x00EE#16 }) := by decide

/-- C-11. -/
theorem test_se_imm : (after 0x3012 (regs [(0, 0x12#8)])).map (·.pc) = some 0x204#16 ∧
    (after 0x3013 (regs [(0, 0x12#8)])).map (·.pc) = some 0x202#16 := by decide

/-- C-12. -/
theorem test_sne_imm : (after 0x4012 (regs [(0, 0x12#8)])).map (·.pc) = some 0x202#16 ∧
    (after 0x4013 (regs [(0, 0x12#8)])).map (·.pc) = some 0x204#16 := by decide

/-- C-13, C-14. -/
theorem test_se_reg : (after 0x5010 (regs [(0, 7#8), (1, 7#8)])).map (·.pc) = some 0x204#16 ∧
    (after 0x5010 (regs [(0, 7#8), (1, 8#8)])).map (·.pc) = some 0x202#16 := by decide

/-- C-13, C-14. -/
theorem test_sne_reg : (after 0x9010 (regs [(0, 7#8), (1, 7#8)])).map (·.pc) = some 0x202#16 ∧
    (after 0x9010 (regs [(0, 7#8), (1, 8#8)])).map (·.pc) = some 0x204#16 := by decide

/-- C-19, C-20. -/
theorem test_jp_v0 : (after 0xBFFF (regs [(0, 0xFF#8)])).map (·.pc) = some 0x10FE#16 ∧
    (after 0xB300 (regs [(0, 5#8), (3, 0x40#8)])).map (·.pc) = some 0x305#16 := by decide

/-! Loads, arithmetic, logic, shifts. -/

theorem test_ld_imm : view (after 0x60AB State.reset) = some (0xAB#8, 0#8, 0x202#16) := by decide -- A-1
theorem test_ld_imm_flag : view (after 0x6F05 State.reset) = some (0#8, 5#8, 0x202#16) := by decide -- A-2

/-- A-3. -/
theorem test_add_imm : view (after 0x7001 (regs [(0, 0xFF#8), (15, 7#8)])) = some (0#8, 7#8, 0x202#16) := by decide

/-- A-6. -/
theorem test_ld_reg : view (after 0x8010 (regs [(1, 0x5A#8), (15, 9#8)])) = some (0x5A#8, 9#8, 0x202#16) := by decide

/-- A-7. -/
theorem test_or : view (after 0x8011 (regs [(0, 0xF0#8), (1, 0x0F#8), (15, 3#8)])) =
    some (0xFF#8, 3#8, 0x202#16) := by decide

/-- A-7. -/
theorem test_and : view (after 0x8012 (regs [(0, 0xF0#8), (1, 0x0F#8), (15, 3#8)])) =
    some (0x00#8, 3#8, 0x202#16) := by decide

/-- A-8. -/
theorem test_xor : view (after 0x8003 (regs [(0, 0xAA#8)])) = some (0#8, 0#8, 0x202#16) := by decide

/-- A-11, A-12. -/
theorem test_add_reg : view (after 0x8014 (regs [(0, 0x7F#8), (1, 0x80#8)])) = some (0xFF#8, 0#8, 0x202#16) ∧
    view (after 0x8004 (regs [(0, 0x90#8)])) = some (0x20#8, 1#8, 0x202#16) := by decide

/-- A-14, under both flag orders. -/
theorem test_add_reg_into_flag : (after 0x8F14 (regs [(15, 0x10#8), (1, 0xF5#8)])).map (·.reg 15) = some 5#8 ∧
    (after 0x8F14 { regs [(15, 0x10#8), (1, 0xF5#8)] with cfg := otherConfig }).map (·.reg 15) = some 1#8 := by decide

/-- A-16, A-17. -/
theorem test_sub : view (after 0x8015 (regs [(0, 3#8), (1, 5#8)])) = some (0xFE#8, 0#8, 0x202#16) ∧
    view (after 0x8015 (regs [(0, 7#8), (1, 7#8)])) = some (0#8, 1#8, 0x202#16) := by decide

/-- A-20, A-21. -/
theorem test_subn : view (after 0x8017 (regs [(0, 3#8), (1, 5#8)])) = some (2#8, 1#8, 0x202#16) ∧
    view (after 0x8017 (regs [(0, 5#8), (1, 3#8)])) = some (0xFE#8, 0#8, 0x202#16) := by decide

/-- A-24, A-25. -/
theorem test_shr : view (after 0x8006 (regs [(0, 0xFF#8)])) = some (0x7F#8, 1#8, 0x202#16) ∧
    view (after 0x8016 { regs [(1, 5#8)] with cfg := otherConfig }) = some (2#8, 1#8, 0x202#16) := by decide

/-- A-28, A-30. -/
theorem test_shl : view (after 0x800E (regs [(0, 0x40#8)])) = some (0x80#8, 0#8, 0x202#16) ∧
    view (after 0x801E { regs [(1, 0x81#8)] with cfg := otherConfig }) = some (2#8, 1#8, 0x202#16) := by decide

/-! Index and memory. -/

theorem test_ld_i : (after 0xA123 State.reset).map (·.I) = some 0x123#16 := by decide -- M-1

/-- M-3, M-4. -/
theorem test_add_i : (after 0xF01E (indexed 0xFFF#16 [(0, 1#8)])).map (fun t => (t.I, t.reg 15)) = some (0x1000#16, 0#8) ∧
    (after 0xF01E (indexed 0xFFFF#16 [(0, 2#8)])).map (·.I) = some 1#16 := by decide

/-- M-6. -/
theorem test_ld_f : (after 0xF029 (regs [(0, 0x1A#8)])).map (·.I) = some 50#16 := by decide

/-- M-10. -/
theorem test_ld_b : bytes 0xFFD 3 (after 0xF033 (indexed 0xFFD#16 [(0, 100#8)])) = some [1#8, 0#8, 0#8] := by decide

/-- M-11. -/
theorem test_ld_b_outside : (after 0xF033 (indexed 0xFFE#16 [(0, 100#8)])).map (fun t => (record t, t.readByte 0xFFE)) =
    some (some { kind := .outOfBoundsAddress, pc := 0x200#16, opcode := some 0xF033#16 }, 0#8) := by decide

/-- M-12. -/
theorem test_ld_mem_vx : bytes 0x300 5 (after 0xF355 (indexed 0x300#16 [(0, 1#8), (1, 2#8), (2, 3#8), (3, 4#8), (4, 5#8)])) =
    some [1#8, 2#8, 3#8, 4#8, 0#8] := by decide

/-- M-18: the glyph table is writable; the write back of its own byte leaves memory as it was (Memory.wf). -/
theorem test_glyphs_are_writable : bytes 0 2 (after 0xF055 (indexed 0#16 [(0, 0xAA#8)])) = some [0xAA#8, 0x90#8] ∧
    (stored 0 [0xF0#8] (stored 0 [0xAA#8] State.reset)) = State.reset := by decide

/-- M-15. -/
theorem test_ld_vx_mem : (after 0xF265 (stored 0x300 [2#8, 3#8, 4#8, 5#8] (indexed 0x300#16 [(3, 0x77#8)]))).map
    (fun t => (t.reg 0, t.reg 1, t.reg 2, t.reg 3, t.I)) = some (2#8, 3#8, 4#8, 0x77#8, 0x300#16) := by decide

/-- M-16. -/
theorem test_ld_vx_mem_outside : (after 0xF165 (indexed 0xFFF#16 [(0, 7#8)])).map (fun t => (record t, t.reg 0)) =
    some (some { kind := .outOfBoundsAddress, pc := 0x200#16, opcode := some 0xF165#16 }, 7#8) := by decide

/-! Framebuffer, random, keypad, timers. -/

/-- F-1. -/
theorem test_cls : (after 0x00E0 { State.reset with fb := [(0, 3), (5, 1)] }).map (·.fb) = some [] := by decide

/-- F-2, and the lined-up byte is used up. -/
theorem test_rnd : (after 0xC00F { State.reset with randomIn := [0xAB#8, 1#8] }).map (fun t => (t.reg 0, t.randomIn)) =
    some (0x0B#8, [1#8]) := by decide

/-- F-3: whatever is drawn. -/
theorem test_rnd_zero_mask : (execRnd 0 0#8 State.reset) = .next
    ({ State.reset with randomCount := 1, pc := 0x202#16 }.setReg 0 (Config.randomByte 0 &&& 0#8)) := rfl

/-- F-5: glyph 0 at the origin, 14 pixels, listed row by row. -/
theorem test_drw : (after 0xD015 State.reset).map (fun t => (t.fb, t.reg 15)) = some
    ([(0, 0), (0, 1), (0, 2), (0, 3), (1, 0), (1, 3), (2, 0), (2, 3), (3, 0), (3, 3), (4, 0), (4, 1), (4, 2), (4, 3)],
      0#8) := by decide

/-- F-8 drawn over the pixel it turns on: coordinates wrap, and the pixel is erased with a collision. -/
theorem test_drw_wraps_and_collides :
    (after 0xD011 (stored 0x300 [0x80#8] { indexed 0x300#16 [(0, 70#8), (1, 33#8)] with fb := [(1, 6)] })).map
      (fun t => (t.fb, t.reg 15)) = some ([], 1#8) := by decide

/-- K-1, K-3. -/
theorem test_skp : (after 0xE09E { regs [(0, 0x15#8)] with keys := 0x0020#16 }).map (·.pc) = some 0x204#16 ∧
    (after 0xE09E { regs [(0, 0x15#8)] with keys := 0xFFDF#16 }).map (·.pc) = some 0x202#16 := by decide

/-- K-1, K-2. -/
theorem test_sknp : (after 0xE0A1 { regs [(0, 5#8)] with keys := 0x0020#16 }).map (·.pc) = some 0x202#16 ∧
    (after 0xE0A1 { regs [(0, 5#8)] with keys := 0xFFDF#16 }).map (·.pc) = some 0x204#16 := by decide

/-- K-4. -/
theorem test_ld_vx_dt : (after 0xF307 { State.reset with DT := 0x3C#8 }).map (·.reg 3) = some 0x3C#8 := by decide

/-- K-7: a held key does not complete the await. -/
theorem test_ld_vx_k : (after 0xF30A { State.reset with keys := 0x0080#16 }).map (fun t => (t.engine, t.pc, t.reg 3)) =
    some (.awaitingKey 3, 0x200#16, 0#8) := by decide

/-- K-16: the key press of an await into VF. -/
theorem test_key_press : (fun t : State => (t.reg 15, t.pc, t.engine))
    ({ State.reset with pc := 0x30F#16, engine := .awaitingKey 15 }.keyPress 12) = (12#8, 0x311#16, .running) := by decide

theorem test_ld_dt_vx : (after 0xF015 (regs [(0, 60#8)])).map (·.DT) = some 60#8 := by decide -- K-10
theorem test_ld_st_vx : (after 0xF118 (regs [(1, 5#8)])).map (·.ST) = some 5#8 := by decide -- K-11

/-- K-13. -/
theorem test_tick : (fun t : State => (t.DT, t.ST)) ({ State.reset with DT := 0#8, ST := 3#8 }.tick) = (0#8, 2#8) := by decide

/-- I-2. -/
theorem test_load : (fun a : LoadAnswer => (a.1, a.2.mem.readRange a.2.cfg.glyphs 511 6))
    (State.reset.load (some [0x60#8, 0x05#8, 0x61#8, 0x03#8])) =
      (none, [0#8, 0x60#8, 0x05#8, 0x61#8, 0x03#8, 0#8]) := by decide

/-! ### Witnesses: for every statement with hypotheses, concrete states and operands that meet them, clause by clause -/

/-- A reset state at another pc, with a word placed there. -/
def placed (pc : Word) (w : Nat) : State := { State.reset with pc := pc }.withFetchWord 16 w

/-- A FAULTED state. -/
def failedState : State := State.reset.enterFault .stackUnderflow (some 0x00EE#16)

/-- DecodeOfEncodeGivesInstruction. -/
theorem witness_well_formed : Instr.wf true (.sys 0x0E1#12) = true ∧ Instr.wf false (.jp 0xFFF#12) = true := by decide

/-- EncodeOfDecodeGivesWord. -/
theorem witness_decodes : decode false 0xD12F#16 = .ok (.drw 1 2 15) ∧ decode true 0x0000#16 = .ok (.sys 0#12) := by decide

/-- UnmatchedWordsAreExactlyTheListed: one word of each line, and a neighbour on the other side. -/
theorem witness_unmatched_lines :
    decode true 0x500F#16 = .error .unmatched ∧ decode true 0x5000#16 = .ok (.seReg 0 0) ∧
    decode true 0x800D#16 = .error .unmatched ∧ decode true 0x800E#16 = .ok (.shl 0 0) ∧
    decode true 0xE09F#16 = .error .unmatched ∧ decode true 0xF064#16 = .error .unmatched ∧
    decode false 0x00E1#16 = .error .unmatched ∧ decode false 0x00E0#16 = .ok .cls := by decide

/-- AddressAndImmediateRowsHaveTheirPatterns, the SYS premise on both sides of the excluded addresses. -/
theorem witness_sys_address : (0x0DF#12).toNat ≠ 0x0E0 ∧ (0x0EF#12).toNat ≠ 0x0EE ∧
    decode true 0x00DF#16 = .ok (.sys 0x0DF#12) ∧ decode true 0x00EF#16 = .ok (.sys 0x0EF#12) := by decide

/-- StepExecutesTheDecodedInstruction, at the last pc a fetch succeeds at. -/
theorem witness_step_executes : (placed 0xFFE#16 0x6005).engine = .running ∧ (placed 0xFFE#16 0x6005).pc.toNat + 1 ≤ 4095 ∧
    decode (placed 0xFFE#16 0x6005).cfg.sysJump (BitVec.ofNat 16
      (((placed 0xFFE#16 0x6005).readByte 0xFFE).toNat * 256 + ((placed 0xFFE#16 0x6005).readByte 0xFFF).toNat)) =
      .ok (.ldImm 0 5#8) := by decide

/-- StepWhileAwaitingKeyChangesNothing and KeyPressCompletesTheAwait, at the last register. -/
theorem witness_awaiting : ({ State.reset with engine := .awaitingKey 15 } : State).engine = .awaitingKey 15 := by decide

/-- FetchOutsideMemoryFaults, at the first pc outside and at the last. -/
theorem witness_fetch_outside :
    ({ State.reset with pc := 0xFFF#16 } : State).engine = .running ∧
    ({ State.reset with pc := 0xFFF#16 } : State).pc.toNat + 1 > 4095 ∧
    ({ State.reset with pc := 0xFFFF#16 } : State).pc.toNat + 1 > 4095 := by decide

/-- UnmatchedWordFaults. -/
theorem witness_unmatched_fetched : (placed 0x200#16 0x8018).engine = .running ∧
    (placed 0x200#16 0x8018).fetch = some 0x8018#16 ∧
    decode (placed 0x200#16 0x8018).cfg.sysJump 0x8018#16 = .error .unmatched := by decide

/-- FaultingStepChangesOnlyTheEngine and FaultKeepsThePc: a handler's fault, from the step and from exec. -/
theorem witness_faulting_step : ∃ t, (placed 0x300#16 0x00EE).engine = .running ∧ step (placed 0x300#16 0x00EE) = .next t ∧
    exec .ret (placed 0x300#16 0x00EE) = .next t ∧
    t.engine = .faulted { kind := .stackUnderflow, pc := 0x300#16, opcode := some 0x00EE#16 } :=
  ⟨_, by decide, rfl, rfl, by decide⟩

/-- ExecutionFaultsHaveExactlyTheListedCauses: a step for each cause, at the first value that faults. -/
theorem witness_fault_causes :
    ((answer (step (placed 0x200#16 0x5001))).bind record).map (·.kind) = some .unmatchedOpcode ∧
    ((answer (step { placed 0x200#16 0x2400 with sp := 16 })).bind record).map (·.kind) = some .stackOverflow ∧
    ((answer (step (placed 0x200#16 0x00EE))).bind record).map (·.kind) = some .stackUnderflow ∧
    ((answer (step { State.reset with pc := 0xFFF#16 })).bind record).map (·.kind) = some .outOfBoundsAddress ∧
    ((answer (step { placed 0x200#16 0xD001 with I := 0x1000#16 })).bind record).map (·.kind) = some .outOfBoundsAddress ∧
    ((answer (step { placed 0x200#16 0xF033 with I := 0xFFE#16 })).bind record).map (·.kind) = some .outOfBoundsAddress ∧
    ((answer (step { placed 0x200#16 0xFF55 with I := 0xFF1#16 })).bind record).map (·.kind) = some .outOfBoundsAddress ∧
    ((answer (step { placed 0x200#16 0xF065 with I := 0x1000#16 })).bind record).map (·.kind) = some .outOfBoundsAddress := by
  decide

/-- The same steps at the last value that does not fault. -/
theorem witness_no_fault_causes :
    (answer (step { placed 0x200#16 0x2400 with sp := 15 })).map record = some none ∧
    (answer (step { placed 0x200#16 0x00EE with sp := 1 })).map record = some none ∧
    (answer (step { placed 0x200#16 0xD001 with I := 0xFFF#16 })).map record = some none ∧
    (answer (step { placed 0x200#16 0xF033 with I := 0xFFD#16 })).map record = some none ∧
    (answer (step { placed 0x200#16 0xFF55 with I := 0xFF0#16 })).map record = some none ∧
    (answer (step { placed 0x200#16 0xF065 with I := 0xFFF#16 })).map record = some none := by decide

/-- PcMovesOnlyByTheControlEffect, a next state of each of its four shapes. -/
theorem witness_pc_moves :
    (∃ t, exec .ret State.reset = .next t) ∧ (∃ t, exec (.ldVxK 3) State.reset = .next t) ∧
    (∃ t, exec (.seImm 0 0#8) State.reset = .next t ∧ t.pc = State.reset.pc + 4#16) ∧
    (∃ t, exec (.jpV0 0xFFF#12) (regs [(0, 0xFF#8)]) = .next t ∧ t.pc.toNat = 4350) :=
  ⟨⟨_, rfl⟩, ⟨_, rfl⟩, ⟨_, rfl, by decide⟩, ⟨_, rfl, by decide⟩⟩

/-- EveryInstructionKeepsItsFrame: the first addresses outside the stores of LD_B and LD_MEM_VX that end at 0xFFE, and
the slot a CALL does not write. -/
theorem witness_frame :
    (∃ t, exec (.ldB 0) (indexed 0xFFC#16 []) = .next t) ∧ (0xFFF : Nat) ≥ (indexed 0xFFC#16 []).I.toNat +
      (storedBytes (indexed 0xFFC#16 []) (.ldB 0)).length ∧ (0xFFB : Nat) < (indexed 0xFFC#16 []).I.toNat ∧
    (∃ t, exec (.ldMemVx 15) (indexed 0xFEF#16 []) = .next t) ∧ (0xFFF : Nat) ≥ (indexed 0xFEF#16 []).I.toNat +
      (storedBytes (indexed 0xFEF#16 []) (.ldMemVx 15)).length ∧ (0xFEE : Nat) < (indexed 0xFEF#16 []).I.toNat ∧
    (∃ t, exec (.call 0#12) State.reset = .next t) ∧ (1 : Fin 16).val ≠ State.reset.sp.val :=
  ⟨⟨_, rfl⟩, by decide, by decide, ⟨_, rfl⟩, by decide, by decide, ⟨_, rfl⟩, by decide⟩

/-- RegistersAreWrittenOnlyByTheListedInstructions: the register above the last a load writes. -/
theorem witness_register_not_written : ∃ t, exec (.ldVxMem 14) State.reset = .next t ∧
    mayWriteReg (.ldVxMem 14) 15 = false ∧ mayWriteReg (.ldVxMem 14) 14 = true := ⟨_, rfl, by decide, by decide⟩

/-- RetPopsAndReturnsPastTheCall, CallPushesItsOwnAddress, CallThenReturnRestoresPcAndSp,
StackPointerCountsSlotsAndOnlyCallAndRetUseIt: the ends of the sp range. -/
theorem witness_stack_pointer :
    ({ State.reset with sp := 1 } : State).sp.val = (0 : Fin 16).val + 1 ∧
    ({ State.reset with sp := 16 } : State).sp.val = (15 : Fin 16).val + 1 ∧ State.reset.sp.val = 0 ∧
    State.reset.sp.val = (0 : Fin 16).val ∧ ({ State.reset with sp := 15 } : State).sp.val = (15 : Fin 16).val ∧
    ({ State.reset with sp := 15 } : State).sp.val < 16 ∧ ({ State.reset with sp := 16 } : State).sp.val = 16 := by decide

/-- StackPointerCountsSlotsAndOnlyCallAndRetUseIt: an instruction that is neither (its premises on sp are in
witness_stack_pointer). -/
theorem witness_not_call_or_ret : Instr.jp 0#12 ≠ .ret ∧ ∀ NNN, Instr.jp 0#12 ≠ .call NNN := by simp

/-- SysIsTheLegacyJump and ShiftsMoveOneBitIntoTheFlag: both values of each parameter. -/
theorem witness_parameters : Config.reference.sysJump = true ∧
    ({ Config.reference with sysJump := false } : Config).sysJump = false ∧ Config.reference.shiftSource = .x ∧
    otherConfig.shiftSource = .y ∧ (otherConfig.shiftSource = .x → (0#8 : Byte) = State.reset.reg 1) := by decide

/-- WritesResultAndFlag, in the statements of ADD_REG, SUB, SUBN, SHR, SHL: each premise on X and FLAG_ORDER. -/
theorem witness_flag_orders : (14 : Reg) ≠ 15 ∧ Config.reference.flagOrder = .flagThenDest ∧
    otherConfig.flagOrder = .destThenFlag := by decide

/-- LdBStoresTheThreeDigits: the last I inside and the first outside. -/
theorem witness_ld_b : Memory.wf (indexed 0xFFD#16 []).cfg.glyphs (indexed 0xFFD#16 []).mem ∧
    (indexed 0xFFD#16 []).I.toNat + 2 ≤ 4095 ∧ (indexed 0xFFE#16 []).I.toNat + 2 > 4095 := by decide

/-- LdMemVxDumpsTheRegisters, LdVxMemLoadsTheRegisters, DumpThenLoadRestoresTheRegisters: the last I inside and the first
outside, for the first and the last register. -/
theorem witness_dump_and_load : Memory.wf (indexed 0xFF0#16 []).cfg.glyphs (indexed 0xFF0#16 []).mem ∧
    (indexed 0xFF0#16 []).I.toNat + (15 : Reg).val ≤ 4095 ∧ (indexed 0xFF1#16 []).I.toNat + (15 : Reg).val > 4095 ∧
    (indexed 0xFFF#16 []).I.toNat + (0 : Reg).val ≤ 4095 ∧ (indexed 0x1000#16 []).I.toNat + (0 : Reg).val > 4095 := by decide

/-- RndMasksTheDrawnByte: a byte lined up, and none. -/
theorem witness_random_inputs : ({ State.reset with randomIn := [0xAB#8] } : State).randomIn = 0xAB#8 :: [] ∧
    State.reset.randomIn = [] := by decide

/-- DrwXorsTheSpriteAndReportsCollision and DrawingTwiceRestoresTheFramebuffer: N = 0 with any I, the last I inside for
N = 1 and N = 15 and the first outside, on a framebuffer with a lit pixel at the last place. -/
theorem witness_draw : Config.reference.wf ∧ Framebuffer.wf Config.reference.fbW Config.reference.fbH [(31, 63)] ∧
    ((0 : Fin 16).val = 0 ∨ (indexed 0xFFFF#16 []).I.toNat + (0 : Fin 16).val - 1 ≤ 4095) ∧
    (indexed 0xFFF#16 []).I.toNat + (1 : Fin 16).val - 1 ≤ 4095 ∧
    (indexed 0xFF1#16 []).I.toNat + (15 : Fin 16).val - 1 ≤ 4095 ∧ 1 ≤ (1 : Fin 16).val ∧
    (indexed 0x1000#16 []).I.toNat + (1 : Fin 16).val - 1 > 4095 ∧
    (indexed 0xFF2#16 []).I.toNat + (15 : Fin 16).val - 1 > 4095 := by decide

/-- DrawingTwiceRestoresTheFramebuffer: a first draw that keeps x[0] and x[1] and clears no pixel, of a sprite with a set
bit. -/
theorem witness_draw_twice : ∃ t, exec (.drw 0 1 1) State.reset = .next t ∧ t.reg 0 = State.reset.reg 0 ∧
    t.reg 1 = State.reset.reg 1 ∧ (t.reg 15).toNat = 0 ∧ 0 < (1 : Fin 16).val ∧ SpriteBit State.reset 0 0 = true :=
  ⟨_, rfl, by decide, by decide, by decide, by decide, by decide⟩

/-- KeyPressOutsideTheAwaitIsDropped, FaultedEngineIsLeftOnlyByInitialization: RUNNING and FAULTED, the latter left. -/
theorem witness_not_awaiting : (∀ X, State.reset.engine ≠ .awaitingKey X) ∧ (∀ X, failedState.engine ≠ .awaitingKey X) ∧
    failedState.engine = .faulted { kind := .stackUnderflow, pc := 0x200#16, opcode := some 0x00EE#16 } ∧
    (failedState.after .reset).engine ≠ failedState.engine ∧
    (failedState.after (.load (some [0x12#8]))).engine ≠ failedState.engine := by decide

/-- TickCountsBothTimersDown: each timer at 0, at 1 and at its greatest value. -/
theorem witness_timers : State.reset.DT.toNat = 0 ∧ State.reset.ST.toNat = 0 ∧
    ({ State.reset with DT := 1#8, ST := 0xFF#8 } : State).DT.toNat > 0 ∧
    ({ State.reset with DT := 1#8, ST := 0xFF#8 } : State).ST.toNat > 0 := by decide

/-- LoadIsAllOrNothing: the longest image accepted, the shortest refused, and a byte of an image. -/
theorem witness_image_lengths : (List.replicate 3584 0x12#8).length ≤ 3584 ∧ (List.replicate 3585 0x12#8).length > 3584 ∧
    0 < [0x12#8].length := by
  rw [List.length_replicate, List.length_replicate]; decide

/-- AwaitingKeyIsEnteredByLdVxKAndLeftByKeyPressOrInit: entering the await by a step, leaving it by a key press and by a reset, staying in it
over a tick and over a refused load. -/
theorem witness_await :
    ((placed 0x200#16 0xF50A).engine = .running ∧ InstrAt (placed 0x200#16 0xF50A) (.ldVxK 5)) ∧
    (∃ t, act .step (placed 0x200#16 0xF50A) = .next t ∧ t.engine = .awaitingKey 5 ∧
      (placed 0x200#16 0xF50A).engine ≠ t.engine) ∧
    (∃ t, act (.event (.keyPress 7)) { State.reset with engine := .awaitingKey 5 } = .next t ∧ t.engine ≠ .awaitingKey 5) ∧
    (∃ t, act (.event .reset) { State.reset with engine := .awaitingKey 5 } = .next t ∧ t.engine ≠ .awaitingKey 5) ∧
    (∃ t, act (.event .tick) { State.reset with engine := .awaitingKey 5, DT := 2#8 } = .next t ∧
      t.engine = .awaitingKey 5 ∧ t.DT = 1#8) ∧
    (∃ t, act (.event (.load none)) { State.reset with engine := .awaitingKey 5 } = .next t ∧ t.engine = .awaitingKey 5) :=
  ⟨⟨by decide, 0xF50A#16, by decide, by decide⟩, ⟨_, rfl, by decide, by decide⟩, ⟨_, rfl, by decide⟩,
    ⟨_, rfl, by decide⟩, ⟨_, rfl, by decide, by decide⟩, ⟨_, rfl, by decide⟩⟩

/-- FinishedRunStaysWhereItIs: C-2, and a legacy jump to itself. -/
theorem witness_finished : (placed 0x206#16 0x1206).finished = true ∧ (placed 0x206#16 0x0206).finished = true := by decide

/-- NextFetchSeesTheStore: the shortest dump over the next word. -/
theorem witness_store_ahead : Memory.wf (indexed 0x202#16 []).cfg.glyphs (indexed 0x202#16 []).mem ∧ 1 ≤ (1 : Reg).val ∧
    (indexed 0x202#16 []).I.toNat + (1 : Reg).val ≤ 4095 ∧
    (indexed 0x202#16 []).I.toNat = (indexed 0x202#16 []).pc.toNat + 2 := by decide

/-- InitialStatesMeetTheInvariant: the smallest legal framebuffer. -/
theorem witness_legal_config : ({ Config.reference with fbW := 1, fbH := 1 } : Config).wf := by decide

/-- EveryStepKeepsTheInvariant, EveryHostEventKeepsTheInvariant: a state with a stored byte, a lit pixel and a full stack. -/
theorem witness_invariant : ∃ s t : State, Inv s ∧ s.mem ≠ [] ∧ s.fb ≠ [] ∧ s.sp.val = 16 ∧ step s = .next t ∧
    t.reg 0 = 5#8 :=
  ⟨{ placed 0x200#16 0x6005 with fb := [(31, 63)], sp := 16, stack := Vector.replicate 16 0xFFE#16 }, _,
    ⟨by decide, by decide, by decide, by decide, by decide, by simp [placed, State.withFetchWord],
      by simp [placed, State.withFetchWord]⟩, by decide, by decide, by decide, rfl, by decide⟩

/-- ReachableStatesMeetTheInvariant: two actions from the initial state. -/
theorem witness_reachable : ∃ s : State, Reachable s ∧ s.reg 0 = 5#8 :=
  ⟨_, .act .step (.act (.event (.load (some [0x60#8, 0x05#8]))) (.init Config.reference (by decide) 0#16 [] 0) rfl) rfl,
    by decide⟩

end Sys2Proof.Tests
end

section
/-! The encoder inverts the decoder: no bit of a matched word is ignored (30_encoding.md R89, R90; D13). -/

namespace Sys2Proof

variable {sj : Bool} {a b c d : Nibble} {i : Instr}

theorem eq_ofNat_of_toNat {n k : Nat} {v : BitVec n} (h : v.toNat = k) : v = BitVec.ofNat n k := by
  subst h; simp

theorem encode_of_decodeGroup0 (h : decodeGroup0 sj b c d = .ok i) : encode i = wordOfNibbles 0x0#4 b c d := by
  unfold decodeGroup0 at h
  split at h
  · next hw => obtain ⟨rfl, rfl, rfl⟩ := hw; cases h; rfl
  split at h
  · next hw => obtain ⟨rfl, rfl, rfl⟩ := hw; cases h; rfl
  split at h
  · cases h; simp [encode, encodeNNN]
  · cases h

theorem encode_of_decodeGroup8 {X Y : Reg} (h : decodeGroup8 X Y d = .ok i) : encode i = encodeXYF 0x8#4 X Y d := by
  unfold decodeGroup8 at h
  split at h
  case h_10 => cases h
  all_goals
    next hd => rw [eq_ofNat_of_toNat hd]; cases h; rfl

theorem encode_of_decodeGroupE {X : Reg} {kk : Byte} (h : decodeGroupE X kk = .ok i) :
    encode i = encodeXKK 0xE#4 X kk := by
  unfold decodeGroupE at h
  split at h
  case h_3 => cases h
  all_goals
    next hk => rw [eq_ofNat_of_toNat hk]; cases h; rfl

theorem encode_of_decodeGroupF {X : Reg} {kk : Byte} (h : decodeGroupF X kk = .ok i) :
    encode i = encodeXKK 0xF#4 X kk := by
  unfold decodeGroupF at h
  split at h
  case h_10 => cases h
  all_goals
    next hk => rw [eq_ofNat_of_toNat hk]; cases h; rfl

/-- The nibbles that decode to an instruction are those its format puts together (R81). -/
theorem encode_of_decodeNibbles (h : decodeNibbles sj a b c d = .ok i) : encode i = wordOfNibbles a b c d := by
  have ha := a.isLt
  unfold decodeNibbles at h
  split at h
  case h_1 ha => rw [eq_ofNat_of_toNat ha]; exact encode_of_decodeGroup0 h
  case h_9 ha => rw [eq_ofNat_of_toNat ha, encode_of_decodeGroup8 h]; simp [encodeXYF]
  case h_15 ha => rw [eq_ofNat_of_toNat ha, encode_of_decodeGroupE h]; simp [encodeXKK]
  case h_16 =>
    have ha15 : a.toNat = 15 := by simp only [imp_false] at *; omega
    rw [eq_ofNat_of_toNat ha15, encode_of_decodeGroupF h]
    simp [encodeXKK]
  case h_6 ha | h_10 ha =>
    split at h
    · next hd => cases h; rw [eq_ofNat_of_toNat ha, hd]; simp [encode, encodeXYF]
    · cases h
  case h_14 ha => cases h; rw [eq_ofNat_of_toNat ha]; simp [encode, encodeXYF]
  all_goals
    next ha => cases h; rw [eq_ofNat_of_toNat ha]; simp [encode, encodeNNN, encodeXKK]

theorem encode_of_decode {w : Word} (h : decode sj w = .ok i) : encode i = w := by
  rw [encode_of_decodeNibbles h, wordOfNibbles_nibbles]

end Sys2Proof
end

section
/-! What one instruction writes, said once over all instructions: the parts of the state other than pc and engine. The
control half (pc, engine, faults) is exec_cases. -/

namespace Sys2Proof.Machine

/-- What instruction i may have written to s, pc and engine apart: u is s after one of the shared operations, one that the
write lists of Sys2Proof/Safety.lean allow i. A fault writes nothing. -/
inductive Writes (i : Instr) (s : State) : State → Prop
  | nothing : Writes i s s
  | register (X : Reg) (v : Byte) (hX : mayWriteReg i X = true) : Writes i s (s.setReg X v)
  | resultAndFlag (X : Reg) (r f : Byte) (hX : mayWriteReg i X = true) (hF : mayWriteReg i flagReg = true) :
      Writes i s (s.writeDestAndFlag X r f)
  | loadedRegisters (X : Reg) (bs : List Byte) (hl : bs.length = X.val + 1) (hX : ∀ r ≤ X, mayWriteReg i r = true) :
      Writes i s { s with x := writeRegs s.x 0 bs }
  | drawnByte (X : Reg) (v : Byte) (hX : mayWriteReg i X = true) (hR : .random ∈ mayChange i) :
      Writes i s (s.afterDraw.setReg X v)
  | index (v : Word) (hI : .I ∈ mayChange i) : Writes i s { s with I := v }
  | delayTimer (v : Byte) (hD : .DT ∈ mayChange i) : Writes i s { s with DT := v }
  | soundTimer (v : Byte) (hS : .ST ∈ mayChange i) : Writes i s { s with ST := v }
  | clearedScreen (hfb : .fb ∈ mayChange i) : Writes i s { s with fb := [] }
  | sprite (x0 y0 : Byte) (rows : List Byte) (hF : mayWriteReg i flagReg = true) (hfb : .fb ∈ mayChange i) :
      Writes i s (s.drawSprite x0 y0 rows)
  | memory (hb : s.I.toNat + (storedBytes s i).length ≤ Config.memSize) :
      Writes i s { s with mem := s.mem.writeRange s.cfg.glyphs s.I.toNat (storedBytes s i) }
  | pushed (hs : s.sp.val < 16) (hst : .stack ∈ mayChange i) (hsp : .sp ∈ mayChange i) :
      Writes i s { s with stack := s.stack.set s.sp.val s.pc hs, sp := ⟨s.sp.val + 1, by omega⟩ }
  | popped (v : Fin 17) (hsp : .sp ∈ mayChange i) : Writes i s { s with sp := v }

/-- An effect touches pc and engine alone (30_encoding.md R86). -/
theorem applyEffect_eq (u : State) (e : Effect) :
    u.applyEffect e = { u with pc := (u.applyEffect e).pc, engine := (u.applyEffect e).engine } := by cases e <;> rfl

variable {i : Instr} {s t u : State}

theorem writes_of_finish {e : Effect} (hu : Writes i s u) (h : finish e u = .next t) :
    ∃ u p g, Writes i s u ∧ t = { u with pc := p, engine := g } :=
  ⟨u, (u.applyEffect e).pc, (u.applyEffect e).engine, hu, (Host.Outcome.next.inj h).symm.trans (applyEffect_eq u e)⟩

theorem writes_of_raise {k : FaultKind} {j : Instr} (h : raise k j s = .next t) :
    ∃ u p g, Writes i s u ∧ t = { u with pc := p, engine := g } :=
  ⟨s, _, _, .nothing, (Host.Outcome.next.inj h).symm⟩

/-- Every instruction writes as its lists allow, and beside that only pc and engine. -/
theorem exec_writes (h : exec i s = .next t) : ∃ u p g, Writes i s u ∧ t = { u with pc := p, engine := g } := by
  cases i
  case ret =>
    simp only [exec, execRet] at h
    split at h
    · exact writes_of_raise h
    · next hp =>
      obtain ⟨_, -, rfl⟩ := pop_some hp
      exact writes_of_finish (.popped _ (by simp [mayChange])) h
  case call NNN =>
    simp only [exec, execCall] at h
    split at h
    · exact writes_of_raise h
    · next hp =>
      obtain ⟨hs, rfl⟩ := push_some hp
      exact writes_of_finish (.pushed hs (by simp [mayChange]) (by simp [mayChange])) h
  case sys NNN =>
    simp only [exec, execSys] at h
    split at h
    · exact writes_of_finish .nothing h
    · exact writes_of_raise h
  case ldB X =>
    simp only [exec, execLdB] at h
    split at h
    · exact writes_of_raise h
    · next hp =>
      obtain ⟨hb, rfl, -⟩ := memWrite_some hp
      exact writes_of_finish (.memory (hb.resolve_left (by simp [bcdDigits]))) h
  case ldMemVx X =>
    simp only [exec, execLdMemVx] at h
    split at h
    · exact writes_of_raise h
    · next hp =>
      obtain ⟨hb, rfl, -⟩ := memWrite_some hp
      have hne : s.regsUpTo X ≠ [] := List.ne_nil_of_length_eq_add_one (regsUpTo_length s X)
      exact writes_of_finish (.memory (hb.resolve_left hne)) h
  case ldVxMem X =>
    simp only [exec, execLdVxMem] at h
    split at h
    · exact writes_of_raise h
    · next hp =>
      obtain ⟨-, hl, -⟩ := memRead_some hp
      exact writes_of_finish (.loadedRegisters X _ hl (by simp [mayWriteReg])) h
  case drw X Y N =>
    simp only [exec, execDrw] at h
    split at h
    · exact writes_of_raise h
    · exact writes_of_finish (.sprite _ _ _ (by simp [mayWriteReg]) (by simp [mayChange])) h
  case jp | jpV0 | seImm | sneImm | seReg | sneReg | skp | sknp | ldVxK => exact writes_of_finish .nothing h
  case ldImm X _ | addImm X _ | ldReg X _ | bitOr X _ | bitAnd X _ | bitXor X _ | ldVxDt X =>
    exact writes_of_finish (.register X _ (by simp [mayWriteReg])) h
  case addReg X _ | sub X _ | subn X _ | shr X _ | shl X _ =>
    exact writes_of_finish (.resultAndFlag X _ _ (by simp [mayWriteReg]) (by simp [mayWriteReg])) h
  case rnd X _ => exact writes_of_finish (.drawnByte X _ (by simp [mayWriteReg]) (by simp [mayChange])) h
  case ldI | addI | ldF => exact writes_of_finish (.index _ (by simp [mayChange])) h
  case ldDtVx => exact writes_of_finish (.delayTimer _ (by simp [mayChange])) h
  case ldStVx => exact writes_of_finish (.soundTimer _ (by simp [mayChange])) h
  case cls => exact writes_of_finish (.clearedScreen (by simp [mayChange])) h

/-! ### What follows part by part -/

theorem Writes.reg_eq (hu : Writes i s u) {r : Reg} (hr : mayWriteReg i r = false) : u.reg r = s.reg r := by
  have ne {X : Reg} (hX : mayWriteReg i X = true) : r ≠ X := by rintro rfl; simp [hr] at hX
  cases hu with
  | register X v hX => exact setReg_reg_ne s v (ne hX)
  | drawnByte X v hX => rw [setReg_reg_ne _ v (ne hX), afterDraw_reg]
  | resultAndFlag X v f hX hF => cases ho : s.cfg.flagOrder <;> simp [writeDestAndFlag_reg, ho, ne hX, ne hF]
  | sprite x0 y0 rows hF => exact setReg_reg_ne _ _ (ne hF)
  | loadedRegisters X bs hl hX =>
    have hXr : ¬r ≤ X := fun hle => ne (hX r hle) rfl
    show (writeRegs s.x 0 bs)[r.val] = s.x[r.val]
    rw [writeRegs_getElem, dif_neg fun hr => hXr (Fin.le_def.2 (by omega))]
  | _ => rfl

/-- Memory is as before, or the bytes the instruction stores are in it from I upward, inside memory. -/
theorem Writes.mem_cases (hu : Writes i s u) : u.mem = s.mem ∨
    s.I.toNat + (storedBytes s i).length ≤ Config.memSize ∧
      u.mem = s.mem.writeRange s.cfg.glyphs s.I.toNat (storedBytes s i) := by
  cases hu with
  | memory hb => exact .inr ⟨hb, rfl⟩
  | _ => left; simp

theorem Writes.cfg_eq (hu : Writes i s u) : u.cfg = s.cfg := by cases hu <;> simp

theorem Writes.readByte_outside (hu : Writes i s u) {a : Nat}
    (ha : a < s.I.toNat ∨ s.I.toNat + (storedBytes s i).length ≤ a) : u.readByte a = s.readByte a := by
  rcases hu.mem_cases with hm | ⟨-, hm⟩
  · exact readByte_congr hm hu.cfg_eq a
  · rw [State.readByte, hm, hu.cfg_eq]; exact read_writeRange_outside _ _ ha

theorem Writes.mem_wf (hu : Writes i s u) (hm : Memory.wf s.cfg.glyphs s.mem) : Memory.wf s.cfg.glyphs u.mem := by
  rcases hu.mem_cases with h | ⟨hb, h⟩
  · rwa [h]
  · rw [h]; exact writeRange_wf hm (.inr hb)

/-- A blit inside a grid of positive size keeps the canonical form (43_io.md R182). -/
theorem xorBlit_wf {W H : Nat} {fb : Framebuffer} (hW : 0 < W) (hH : 0 < H) (hfb : Framebuffer.wf W H fb) (x0 y0 : Byte)
    (rows : List Byte) : Framebuffer.wf W H (xorBlit W H fb x0 y0 rows).1 :=
  flipPixels_wf hfb (spritePixels_inside hW hH)

theorem Writes.fb_wf (hu : Writes i s u) (hc : s.cfg.wf) (hfb : Framebuffer.wf s.cfg.fbW s.cfg.fbH s.fb) :
    Framebuffer.wf s.cfg.fbW s.cfg.fbH u.fb := by
  cases hu with
  | clearedScreen => exact nil_fb_wf _ _
  | sprite x0 y0 rows => exact xorBlit_wf hc.1 hc.2 hfb x0 y0 rows
  | _ => simpa using hfb

/-- A stack slot is as before, or it is the one sp names and holds pc (40_control_flow.md R103). -/
theorem Writes.stack_cases (hu : Writes i s u) (k : Fin 16) :
    u.stack[k.val] = s.stack[k.val] ∨ k.val = s.sp.val ∧ u.stack[k.val] = s.pc := by
  cases hu with
  | pushed hs =>
    simp only [Vector.getElem_set]
    split
    · next hk => exact .inr ⟨hk.symm, rfl⟩
    · exact .inl rfl
  | _ => left; simp

theorem storedBytes_eq_nil (hm : .memory ∉ mayChange i) : storedBytes s i = [] := by
  cases i <;> simp [mayChange, storedBytes] at hm ⊢

theorem mayWriteReg_eq_false (hr : .regs ∉ mayChange i) (r : Reg) : mayWriteReg i r = false := by
  cases i <;> simp [mayChange, mayWriteReg] at hr ⊢

/-- The frame of what an instruction writes. -/
theorem Writes.keepsAllBut (hu : Writes i s u) : KeepsAllBut (.pc :: .engine :: mayChange i) s u := by
  have hregs : .regs ∉ mayChange i → ∀ r, u.reg r = s.reg r := fun h r => hu.reg_eq (mayWriteReg_eq_false h r)
  have hmem : .memory ∉ mayChange i → ∀ a, u.readByte a = s.readByte a := fun h a =>
    hu.readByte_outside (by rw [storedBytes_eq_nil h]; exact Nat.lt_or_ge _ _)
  simp only [keepsAllBut_iff]
  cases hu <;> simp_all

/-- Only LD_VX_K keeps pc. -/
theorem exec_pc_eq (h : exec i s = .next t) (hpc : .pc ∉ mayChange i) : t.pc = s.pc := by
  obtain ⟨X, rfl⟩ : ∃ X, i = .ldVxK X := by cases i <;> simp [mayChange] at hpc ⊢
  rw [← Host.Outcome.next.inj h]; rfl

theorem Raises.engine_mem_mayChange {k : FaultKind} (h : Raises i s k) : .engine ∈ mayChange i := by
  rcases h with ⟨-, rfl, -⟩ | ⟨-, ⟨_, rfl⟩, -⟩ | ⟨-, ⟨_, rfl⟩, -⟩ |
    ⟨-, ⟨_, _, _, rfl, -⟩ | ⟨_, rfl, -⟩ | ⟨_, rfl, -⟩ | ⟨_, rfl, -⟩⟩ <;> simp [mayChange]

theorem exec_engine_eq (h : exec i s = .next t) (he : .engine ∉ mayChange i) : t.engine = s.engine := by
  rcases exec_cases h with ⟨k, -, hk⟩ | ⟨e, u, rfl, ha, -, hu, -⟩
  · exact absurd hk.engine_mem_mayChange he
  · cases e with
    | suspend X => obtain rfl : i = .ldVxK X := ha; simp [mayChange] at he
    | _ => exact hu

/-- A skip neither jumps nor suspends. -/
theorem isJump_of_isSkip (h : isSkip i = true) : isJump i = false := by cases i <;> simp [isSkip, isJump] at h ⊢

theorem ne_ldVxK_of_isSkip (h : isSkip i = true) (X : Reg) : i ≠ .ldVxK X := by rintro rfl; simp [isSkip] at h

/-! ### The frame of every instruction -/

/-- What an instruction's row of mayChange does not name is unchanged. -/
theorem exec_keepsAllBut (h : exec i s = .next t) : KeepsAllBut (mayChange i) s t := by
  have hpc := exec_pc_eq h
  have heng := exec_engine_eq h
  obtain ⟨u, p, g, hu, rfl⟩ := exec_writes h
  intro q hq
  have hkeep := hu.keepsAllBut q
  cases q with
  | pc => exact hpc hq
  | engine => exact heng hq
  | _ => exact hkeep (by simpa using hq)

/-- Settles O18, part by part from what an instruction writes. -/
theorem everyInstructionKeepsItsFrame : Obligations.EveryInstructionKeepsItsFrame := by
  unfold Obligations.EveryInstructionKeepsItsFrame
  intro i s t h
  refine ⟨exec_keepsAllBut h, ?_⟩
  obtain ⟨u, p, g, hu, rfl⟩ := exec_writes h
  exact ⟨fun a ha => hu.readByte_outside ha, fun k hk => (hu.stack_cases k).resolve_right fun hs => hk hs.1⟩

/-- Settles O19: every register write of an instruction is one of its list. -/
theorem registersAreWrittenOnlyByTheListedInstructions :
    Obligations.RegistersAreWrittenOnlyByTheListedInstructions := by
  unfold Obligations.RegistersAreWrittenOnlyByTheListedInstructions
  intro i s t r h hr
  obtain ⟨u, p, g, hu, rfl⟩ := exec_writes h
  exact hu.reg_eq hr

/-- Settles O17: the control half of exec_cases, effect by effect. -/
theorem pcMovesOnlyByTheControlEffect : Obligations.PcMovesOnlyByTheControlEffect := by
  unfold Obligations.PcMovesOnlyByTheControlEffect
  intro i s t h
  rcases exec_cases h with ⟨k, rfl, -⟩ | ⟨e, u, rfl, ha, hpc, heng, -⟩
  · exact .inl ⟨k, enterFault_entersFault s k _⟩
  · right
    cases e with
    | suspend X => exact .inl ⟨X, ha, hpc, rfl⟩
    | next => exact .inr (.inl ⟨heng, ha.1, ha.2, .inl (by rw [applyEffect_next_pc, hpc])⟩)
    | skip =>
      have hskip : isSkip i = true := ha
      exact .inr (.inl ⟨heng, isJump_of_isSkip hskip, ne_ldVxK_of_isSkip hskip,
        .inr ⟨hskip, by rw [applyEffect_skip_pc, hpc]⟩⟩)
    | jump target => exact .inr (.inr ⟨heng, ha.1, ha.2⟩)

end Sys2Proof.Machine
end

section
/-! CALL and RET by the value of sp (10_state.md R26, R27; 40_control_flow.md R100, R103), and the step by what was fetched. -/

namespace Sys2Proof.Machine

variable {i : Instr} {s : State} {w : Word}

/-! ### The call stack -/

/-- Either no slot is occupied, or slot k is the last one that is. -/
theorem sp_eq_zero_or_succ (s : State) : s.sp.val = 0 ∨ ∃ k : Fin 16, s.sp.val = k.val + 1 := by
  have := s.sp.isLt
  rcases Nat.eq_zero_or_pos s.sp.val with h | h
  · exact .inl h
  · exact .inr ⟨⟨s.sp.val - 1, by omega⟩, (Nat.sub_add_cancel h).symm⟩

/-- Either every slot is occupied, or slot k is the first that is not. -/
theorem sp_eq_full_or_slot (s : State) : s.sp.val = 16 ∨ ∃ k : Fin 16, s.sp.val = k.val := by
  rcases Nat.lt_succ_iff_lt_or_eq.1 s.sp.isLt with h | h
  · exact .inr ⟨⟨s.sp.val, h⟩, rfl⟩
  · exact .inl h

/-- RET goes two bytes past the last occupied slot, which keeps its value. -/
theorem exec_ret_of_pos {k : Fin 16} (hs : s.sp.val = k.val + 1) :
    exec .ret s = .next { s with sp := k.castSucc, pc := s.stack[k.val] + 2#16 } := by
  simp only [exec, execRet]
  split
  · next hp => have := pop_none.1 hp; omega
  · next hp =>
    obtain ⟨_, rfl, rfl⟩ := pop_some hp
    simp [finish, State.applyEffect, returnTarget, hs, Fin.castSucc, Fin.castAdd, Fin.castLE]

theorem exec_ret_of_zero (hs : s.sp.val = 0) : exec .ret s = raise .stackUnderflow .ret s := by
  simp only [exec, execRet]
  rw [pop_none.2 hs]

/-- CALL puts its own address into the first free slot. -/
theorem exec_call_of_slot (NNN : Addr) {k : Fin 16} (hs : s.sp.val = k.val) :
    exec (.call NNN) s =
      .next { s with stack := s.stack.set k.val s.pc, sp := k.succ, pc := absoluteTarget NNN } := by
  simp only [exec, execCall]
  split
  · next hp => have := push_none.1 hp; omega
  · next hp =>
    obtain ⟨_, rfl⟩ := push_some hp
    simp [finish, State.applyEffect, hs, Fin.succ]

theorem exec_call_of_full (NNN : Addr) (hs : s.sp.val = 16) :
    exec (.call NNN) s = raise .stackOverflow (.call NNN) s := by
  simp only [exec, execCall]
  rw [push_none.2 hs]

/-! ### The step, case by case (30_encoding.md R70 to R73, R84) -/

/-- A fetch succeeds only with both bytes inside memory. -/
theorem pc_le_of_fetch_some (hf : s.fetch = some w) : s.pc.toNat ≤ 4094 := by
  by_contra hlt
  rw [fetch_none.2 (Nat.not_le.1 hlt)] at hf
  cases hf

theorem step_of_not_running (h : s.engine ≠ .running) : step s = .next s := by
  cases he : s.engine with
  | running => exact absurd he h
  | awaitingKey X => exact step_awaiting he
  | faulted r => exact step_faulted he

theorem step_of_fetch_none (hrun : s.engine = .running) (hf : s.fetch = none) :
    step s = .next (s.enterFault .outOfBoundsAddress none) := by simp [step, hrun, State.fetchDecode, hf]

theorem step_of_unmatched (hrun : s.engine = .running) (hf : s.fetch = some w)
    (hd : decode s.cfg.sysJump w = .error .unmatched) :
    step s = .next (s.enterFault .unmatchedOpcode (some w)) := by simp [step, hrun, State.fetchDecode, hf, hd]

theorem step_of_decode (hrun : s.engine = .running) (hf : s.fetch = some w) (hd : decode s.cfg.sysJump w = .ok i) :
    step s = exec i s := by simp [step, hrun, State.fetchDecode, hf, hd]

end Sys2Proof.Machine
end

section
/-! The invariant of every run (Sys2Proof/Safety.lean, Inv): it holds after initialization, every step and every host event
keeps it, so it holds in every reachable state. -/

namespace Sys2Proof.Machine

variable {i : Instr} {s t : State}

/-! ### What an instruction leaves in the parts the invariant speaks of -/

theorem exec_cfg (h : exec i s = .next t) : t.cfg = s.cfg := by
  obtain ⟨u, p, g, hu, rfl⟩ := exec_writes h
  exact hu.cfg_eq

theorem exec_mem_wf (h : exec i s = .next t) (hm : Memory.wf s.cfg.glyphs s.mem) : Memory.wf t.cfg.glyphs t.mem := by
  rw [exec_cfg h]
  obtain ⟨u, p, g, hu, rfl⟩ := exec_writes h
  exact hu.mem_wf hm

theorem exec_fb_wf (h : exec i s = .next t) (hc : s.cfg.wf) (hfb : Framebuffer.wf s.cfg.fbW s.cfg.fbH s.fb) :
    Framebuffer.wf t.cfg.fbW t.cfg.fbH t.fb := by
  rw [exec_cfg h]
  obtain ⟨u, p, g, hu, rfl⟩ := exec_writes h
  exact hu.fb_wf hc hfb

theorem exec_stack_le {n : Nat} (h : exec i s = .next t) (hpc : s.pc.toNat ≤ n)
    (hst : ∀ k : Fin 16, s.stack[k.val].toNat ≤ n) (k : Fin 16) : t.stack[k.val].toNat ≤ n := by
  obtain ⟨u, p, g, hu, rfl⟩ := exec_writes h
  rcases hu.stack_cases k with hk | ⟨-, hk⟩
  · exact hk ▸ hst k
  · exact hk ▸ hpc

/-- From a RUNNING pc and stack slots inside memory, an instruction that does not fault comes to a pc of at most 4350: the
largest target is that of JP_V0 (40_control_flow.md R108). -/
theorem exec_pc_le (h : exec i s = .next t) (hpc : s.pc.toNat ≤ 4094)
    (hst : ∀ k : Fin 16, s.stack[k.val].toNat ≤ 4094) : t.pc.toNat ≤ 4350 := by
  rcases exec_cases h with ⟨k, rfl, -⟩ | ⟨e, u, rfl, ha, hu, -, -, -, hk⟩
  · exact Nat.le_trans hpc (by decide)
  · cases e with
    | next => simp only [applyEffect_next_pc, hu, BitVec.toNat_add, BitVec.toNat_ofNat]; omega
    | skip => simp only [applyEffect_skip_pc, hu, BitVec.toNat_add, BitVec.toNat_ofNat]; omega
    | suspend X => simp only [applyEffect_suspend_pc, hu]; omega
    | jump target =>
      obtain ⟨-, rfl | hle⟩ := ha
      · obtain ⟨k, hsk⟩ := (sp_eq_zero_or_succ s).resolve_left fun h0 => hk _ (.inl ⟨rfl, rfl, h0⟩)
        rw [exec_ret_of_pos hsk] at h
        rw [← Host.Outcome.next.inj h]
        have := hst k
        simp only [BitVec.toNat_add, BitVec.toNat_ofNat]; omega
      · exact hle

/-! ### Steps -/

/-- Fault entry with the word at pc keeps the invariant (60_exceptions.md R212). -/
theorem Inv.enterFault (hs : Inv s) (k : FaultKind) : Inv (s.enterFault k s.fetch) where
  cfg := hs.cfg
  mem := hs.mem
  fb := hs.fb
  pc := hs.pc
  stack := hs.stack
  awaiting := by simp
  faulted := by rintro r hr; obtain rfl := Engine.faulted.inj hr; exact ⟨rfl, rfl⟩

/-- An instruction run where it was fetched keeps the invariant. -/
theorem Inv.of_exec {w : Word} (hs : Inv s) (hrun : s.engine = .running) (hf : s.fetch = some w)
    (hd : decode s.cfg.sysJump w = .ok i) (h : exec i s = .next t) : Inv t := by
  have hpc := pc_le_of_fetch_some hf
  rcases exec_cases h with ⟨k, rfl, -⟩ | ⟨e, u, rfl, -, hu, hue, -⟩
  · rw [encode_of_decode hd, ← hf]; exact hs.enterFault k
  · refine ⟨exec_cfg h ▸ hs.cfg, exec_mem_wf h hs.mem, exec_fb_wf h hs.cfg hs.fb, exec_pc_le h hpc hs.stack,
      exec_stack_le h hpc hs.stack, fun X hX => ?_, fun r hr => ?_⟩
    · cases e with
      | suspend Y => exact hu ▸ hpc
      | next | skip | jump target => simp [hue, hrun] at hX
    · cases e <;> simp [hue, hrun] at hr

/-- Settles O58: a fetch or decoder fault records the word at pc, and an instruction keeps the invariant part by part. -/
theorem everyStepKeepsTheInvariant : Obligations.EveryStepKeepsTheInvariant := by
  unfold Obligations.EveryStepKeepsTheInvariant
  intro s t hs h
  rcases step_cases s with ⟨-, e⟩ | ⟨-, hf, e⟩ | ⟨-, w, hf, -, e⟩ | ⟨hrun, w, i, hf, hd, e⟩
  · obtain rfl := Host.Outcome.next.inj (e.symm.trans h)
    exact hs
  · obtain rfl := Host.Outcome.next.inj (e.symm.trans h)
    exact hf ▸ hs.enterFault _
  · obtain rfl := Host.Outcome.next.inj (e.symm.trans h)
    exact hf ▸ hs.enterFault _
  · exact hs.of_exec hrun hf hd (e ▸ h)

/-! ### Initialization and host events -/

theorem inv_init {c : Config} (hc : c.wf) (keys : BitVec 16) (bs : List Byte) (n : Nat) :
    Inv (State.init c keys bs n) where
  cfg := hc
  mem := nil_wf _
  fb := nil_fb_wf _ _
  pc := by simp [State.init]
  stack := by simp [State.init]
  awaiting := by simp [State.init]
  faulted := by simp [State.init]

/-- Settles O57: with memory and framebuffer empty the canonical forms hold, and pc is 512. -/
theorem initialStatesMeetTheInvariant : Obligations.InitialStatesMeetTheInvariant :=
  ⟨fun _ keys bs n hc => inv_init hc keys bs n, inv_init (by decide) _ _ _⟩

theorem Inv.hostReset (hs : Inv s) : Inv s.hostReset := inv_init hs.cfg _ _ _

/-- A key press leaves RUNNING at pc + 2, which the await keeps below 4097 (43_io.md R188). -/
theorem Inv.keyPress (hs : Inv s) (k : Key) : Inv (s.keyPress k) := by
  unfold State.keyPress
  split
  · next X hX =>
    refine ⟨hs.cfg, hs.mem, hs.fb, ?_, hs.stack, by simp, by simp⟩
    have := hs.awaiting X hX
    simp only [BitVec.toNat_add, BitVec.toNat_ofNat]; omega
  · exact hs
  · exact hs

theorem Inv.load (hs : Inv s) (source : Option (List Byte)) : Inv (s.load source).2 := by
  cases source with
  | none => exact hs
  | some image =>
    simp only [State.load]
    split
    · exact hs
    · next hl =>
      have hi := hs.hostReset
      have hlen : Config.progBase + image.length ≤ Config.memSize := Nat.add_le_add_left (Nat.not_lt.1 hl) 512
      exact ⟨hi.cfg, writeRange_wf hi.mem (.inr hlen), hi.fb, hi.pc, hi.stack, hi.awaiting,
        fun _ hr => nomatch (hr : Engine.running = _)⟩

/-- Settles O59: only a key press moves pc, only init, reset and load touch memory and framebuffer. -/
theorem everyHostEventKeepsTheInvariant : Obligations.EveryHostEventKeepsTheInvariant := by
  unfold Obligations.EveryHostEventKeepsTheInvariant
  intro s e hs
  cases e with
  | keyPress k => exact hs.keyPress k
  | init | reset => exact hs.hostReset
  | load source => exact hs.load source
  | tick | setKeys v | supplyRandom bs => exact ⟨hs.cfg, hs.mem, hs.fb, hs.pc, hs.stack, hs.awaiting, hs.faulted⟩

theorem Reachable.inv (h : Reachable s) : Inv s := by
  induction h with
  | init cfg hcfg keys bs n => exact inv_init hcfg keys bs n
  | act a _ ha ih =>
    cases a with
    | step => exact everyStepKeepsTheInvariant _ _ ih ha
    | event e => exact Host.Outcome.next.inj ha ▸ everyHostEventKeepsTheInvariant _ e ih

/-- Settles O60: the invariant's bound on pc leaves room for both sums. -/
theorem reachableStatesMeetTheInvariant : Obligations.ReachableStatesMeetTheInvariant := by
  unfold Obligations.ReachableStatesMeetTheInvariant
  intro s h
  have hpc := h.inv.pc
  refine ⟨h.inv, ?_, ?_⟩
  all_goals simp only [BitVec.toNat_add, BitVec.toNat_ofNat]; omega

end Sys2Proof.Machine
end

section
/-! What an instruction does not read: machines that differ in sp alone, or in ST alone, take the same step
(10_state.md R27, R32). -/

namespace Sys2Proof.Machine

variable {i : Instr} {s t : State}

/-! ### No instruction is refused -/

/-- Every handler completes or raises a fault of the machine, and both are next states. -/
theorem exec_next (i : Instr) (s : State) : ∃ t, exec i s = .next t := by
  cases i
  case ret | call | sys | ldB | ldMemVx | ldVxMem | drw =>
    simp only [exec, execRet, execCall, execSys, execLdB, execLdMemVx, execLdVxMem, execDrw]
    split <;> exact ⟨_, rfl⟩
  all_goals exact ⟨_, rfl⟩

/-- Settles O13: the engine stays as it is, enters a fault, or runs an instruction, which always answers. -/
theorem everyStepAnswersANextState : Obligations.EveryStepAnswersANextState := by
  unfold Obligations.EveryStepAnswersANextState
  intro s
  rcases step_cases s with ⟨-, e⟩ | ⟨-, -, e⟩ | ⟨-, _, -, -, e⟩ | ⟨-, _, i, -, -, e⟩
  · exact ⟨_, e⟩
  · exact ⟨_, e⟩
  · exact ⟨_, e⟩
  · exact e ▸ exec_next i s

/-! ### sp and ST replaced -/

/-- s with another stack pointer and another sound timer. -/
def State.withSpST (s : State) (p : Fin 17) (v : Byte) : State := { s with sp := p, ST := v }

variable (p : Fin 17) (v : Byte)

@[simp] theorem withSpST_cfg (s : State) : (s.withSpST p v).cfg = s.cfg := rfl

@[simp] theorem withSpST_I (s : State) : (s.withSpST p v).I = s.I := rfl

@[simp] theorem withSpST_reg (s : State) (r : Reg) : (s.withSpST p v).reg r = s.reg r := rfl

@[simp] theorem withSpST_regsUpTo (s : State) (X : Reg) : (s.withSpST p v).regsUpTo X = s.regsUpTo X := rfl

@[simp] theorem withSpST_randomIn (s : State) : (s.withSpST p v).randomIn = s.randomIn := rfl

@[simp] theorem withSpST_memRead (s : State) (a n : Nat) : (s.withSpST p v).memRead a n = s.memRead a n := rfl

theorem withSpST_applyEffect (s : State) (e : Effect) :
    (s.withSpST p v).applyEffect e = (s.applyEffect e).withSpST p v := by cases e <;> rfl

theorem withSpST_memWrite (s : State) (a : Nat) (bs : List Byte) :
    (s.withSpST p v).memWrite a bs = (s.memWrite a bs).map (·.withSpST p v) := by
  unfold State.memWrite; split <;> rfl

theorem withSpST_writeDestAndFlag (s : State) (X : Reg) (r f : Byte) :
    (s.withSpST p v).writeDestAndFlag X r f = (s.writeDestAndFlag X r f).withSpST p v := by
  unfold State.writeDestAndFlag
  rw [withSpST_cfg]
  split <;> rfl

theorem withSpST_afterDraw (s : State) : (s.withSpST p v).afterDraw = s.afterDraw.withSpST p v := by
  unfold State.afterDraw
  rw [withSpST_randomIn]
  split <;> rfl

theorem withSpST_finish {e : Effect} {u : State} (h : finish e u = .next t) :
    finish e (u.withSpST p v) = .next (t.withSpST p v) := by
  rw [← Host.Outcome.next.inj h, finish, withSpST_applyEffect]

theorem withSpST_raise {k : FaultKind} (h : raise k i s = .next t) :
    raise k i (s.withSpST p v) = .next (t.withSpST p v) := by
  rw [← Host.Outcome.next.inj h]; rfl

/-- No instruction but RET and CALL reads or writes sp, and none but LD_ST_VX writes ST, which none reads. -/
theorem exec_withSpST (hret : i ≠ .ret) (hcall : ∀ NNN, i ≠ .call NNN) (hst : ∀ X, i ≠ .ldStVx X)
    (h : exec i s = .next t) : exec i (s.withSpST p v) = .next (t.withSpST p v) := by
  cases i
  case ret => exact absurd rfl hret
  case call NNN => exact absurd rfl (hcall NNN)
  case ldStVx X => exact absurd rfl (hst X)
  case ldB | ldMemVx =>
    simp only [exec, execLdB, execLdMemVx, withSpST_I, withSpST_reg, withSpST_regsUpTo, withSpST_memWrite] at h ⊢
    split at h
    · next hp => rw [hp]; exact withSpST_raise p v h
    · next hp => rw [hp]; exact withSpST_finish p v h
  case ldVxMem | drw =>
    simp only [exec, execLdVxMem, execDrw, withSpST_I, withSpST_memRead] at h ⊢
    split at h
    · exact withSpST_raise p v h
    · exact withSpST_finish p v h
  case sys =>
    simp only [exec, execSys] at h ⊢
    split at h
    · next hj => exact (if_pos hj).trans (withSpST_finish p v h)
    · next hj => exact (if_neg hj).trans (withSpST_raise p v h)
  case addReg | sub | subn | shr | shl =>
    refine .trans ?_ (withSpST_finish p v h)
    rw [← withSpST_writeDestAndFlag]; rfl
  case rnd =>
    refine .trans ?_ (withSpST_finish p v h)
    show finish _ ((s.withSpST p v).afterDraw.setReg _ _) = _
    rw [withSpST_afterDraw]; rfl
  all_goals exact withSpST_finish p v h

theorem sp_mem_mayChange : .sp ∈ mayChange i ↔ i = .ret ∨ ∃ NNN, i = .call NNN := by cases i <;> simp [mayChange]

theorem ST_mem_mayChange : .ST ∈ mayChange i ↔ ∃ X, i = .ldStVx X := by cases i <;> simp [mayChange]

theorem exec_sp_eq (hret : i ≠ .ret) (hcall : ∀ NNN, i ≠ .call NNN) (h : exec i s = .next t) : t.sp = s.sp :=
  exec_keepsAllBut h .sp (by simp [sp_mem_mayChange, hret, hcall])

theorem exec_ST_eq (hst : ∀ X, i ≠ .ldStVx X) (h : exec i s = .next t) : t.ST = s.ST :=
  exec_keepsAllBut h .ST (by simp [ST_mem_mayChange, hst])

theorem exec_withSp (hret : i ≠ .ret) (hcall : ∀ NNN, i ≠ .call NNN) (h : exec i s = .next t) :
    exec i { s with sp := p } = .next { t with sp := p } := by
  by_cases hst : ∃ X, i = .ldStVx X
  · obtain ⟨X, rfl⟩ := hst
    rw [← Host.Outcome.next.inj h]; rfl
  · have hst' : ∀ X, i ≠ .ldStVx X := not_exists.1 hst
    exact exec_ST_eq hst' h ▸ exec_withSpST p s.ST hret hcall hst' h

/-- RET and CALL read sp but not ST. -/
theorem exec_withST (hst : ∀ X, i ≠ .ldStVx X) (h : exec i s = .next t) :
    exec i { s with ST := v } = .next { t with ST := v } := by
  by_cases hret : i = .ret
  · subst hret
    rcases sp_eq_zero_or_succ s with hs | ⟨k, hs⟩
    · obtain rfl := Host.Outcome.next.inj ((exec_ret_of_zero hs).symm.trans h)
      exact exec_ret_of_zero (s := { s with ST := v }) hs
    · obtain rfl := Host.Outcome.next.inj ((exec_ret_of_pos hs).symm.trans h)
      exact exec_ret_of_pos (s := { s with ST := v }) hs
  by_cases hcall : ∃ NNN, i = .call NNN
  · obtain ⟨NNN, rfl⟩ := hcall
    rcases sp_eq_full_or_slot s with hs | ⟨k, hs⟩
    · obtain rfl := Host.Outcome.next.inj ((exec_call_of_full NNN hs).symm.trans h)
      exact exec_call_of_full NNN (s := { s with ST := v }) hs
    · obtain rfl := Host.Outcome.next.inj ((exec_call_of_slot NNN hs).symm.trans h)
      exact exec_call_of_slot NNN (s := { s with ST := v }) hs
  · have hcall' : ∀ NNN, i ≠ .call NNN := not_exists.1 hcall
    exact exec_sp_eq hret hcall' h ▸ exec_withSpST s.sp v hret hcall' hst h

/-- Settles O27: CALL and RET by the value of sp, and every other instruction commutes with replacing it. -/
theorem stackPointerCountsSlotsAndOnlyCallAndRetUseIt :
    Obligations.StackPointerCountsSlotsAndOnlyCallAndRetUseIt := by
  unfold Obligations.StackPointerCountsSlotsAndOnlyCallAndRetUseIt
  refine ⟨rfl, fun s => Nat.le_of_lt_succ s.sp.isLt, fun NNN s hs => ?_, fun s hs => ?_, fun NNN s hs => ?_,
    fun s hs => ?_, fun i s v hret hcall => ?_⟩
  · exact ⟨_, exec_call_of_slot NNN (k := ⟨s.sp.val, hs⟩) rfl, rfl⟩
  · obtain ⟨k, hk⟩ := (sp_eq_zero_or_succ s).resolve_left hs.ne'
    exact ⟨_, exec_ret_of_pos hk, hk.symm⟩
  · exact ⟨_, _, exec_call_of_full NNN hs, enterFault_entersFault s _ _⟩
  · exact ⟨_, _, exec_ret_of_zero hs, enterFault_entersFault s _ _⟩
  · obtain ⟨t, ht⟩ := exec_next i s
    exact ⟨t, ht, exec_sp_eq hret hcall ht, exec_withSp v hret hcall ht⟩

/-- Settles O55: the fetch does not see ST, and every instruction but LD_ST_VX commutes with replacing it. -/
theorem soundTimerIsNeverRead : Obligations.SoundTimerIsNeverRead := by
  unfold Obligations.SoundTimerIsNeverRead
  intro s v
  rcases step_cases s with ⟨hne, e⟩ | ⟨hrun, hf, e⟩ | ⟨hrun, w, hf, hd, e⟩ | ⟨hrun, w, i, hf, hd, e⟩
  · exact ⟨s, e, .inr ⟨rfl, step_of_not_running hne⟩⟩
  · exact ⟨_, e, .inr ⟨rfl, step_of_fetch_none hrun hf⟩⟩
  · exact ⟨_, e, .inr ⟨rfl, step_of_unmatched hrun hf hd⟩⟩
  · obtain ⟨t, ht⟩ := exec_next i s
    refine ⟨t, e.trans ht, ?_⟩
    rw [step_of_decode (s := { s with ST := v }) hrun hf hd]
    by_cases hst : ∃ X, i = .ldStVx X
    · obtain ⟨X, rfl⟩ := hst
      exact .inl ht
    · exact .inr ⟨exec_ST_eq (not_exists.1 hst) ht, exec_withST v (not_exists.1 hst) ht⟩

end Sys2Proof.Machine
end

section
/-! RET, CALL, RND, SKP, SKNP and initialization, one statement each. -/

namespace Sys2Proof.Machine

/-! ### RET and CALL (40_control_flow.md R100, R103) -/

/-- Settles O20: RET by the value of sp. -/
theorem retPopsAndReturnsPastTheCall : Obligations.RetPopsAndReturnsPastTheCall := by
  unfold Obligations.RetPopsAndReturnsPastTheCall
  refine ⟨fun s k hs => ⟨_, exec_ret_of_pos hs, rfl, rfl, ?_⟩, fun s hs => ?_⟩
  · simp [keepsAllBut_iff, State.reg, State.readByte]
  · rw [exec_ret_of_zero hs]; exact raise_entersFault _ _ s

theorem encode_call (NNN : Addr) : encode (.call NNN) = BitVec.ofNat 16 (0x2000 + NNN.toNat) :=
  word_eq_of_toNat (encodeNNN_toNat 0x2#4 NNN)

/-- Settles O23: CALL by the value of sp. -/
theorem callPushesItsOwnAddress : Obligations.CallPushesItsOwnAddress := by
  unfold Obligations.CallPushesItsOwnAddress
  refine ⟨fun NNN s k hs => ⟨_, exec_call_of_slot NNN hs, ?_, fun j hj => ?_, rfl, absoluteTarget_toNat NNN, ?_⟩,
    fun NNN s hs => ?_⟩
  · simp
  · exact Vector.getElem_set_ne k.isLt j.isLt fun hkj => hj (Fin.ext hkj.symm)
  · simp [keepsAllBut_iff, State.reg, State.readByte]
  · rw [exec_call_of_full NNN hs, ← encode_call]; exact raise_entersFault _ _ s

/-! ### RND (43_io.md R181, 10_state.md R34) -/

theorem drawn_cons {s : State} {d : Byte} {rest : List Byte} (h : s.randomIn = d :: rest) : s.drawn = d := by
  simp [State.drawn, h]

theorem drawn_nil {s : State} (h : s.randomIn = []) : s.drawn = Config.randomByte s.randomCount := by
  simp [State.drawn, h]

theorem afterDraw_cons {s : State} {d : Byte} {rest : List Byte} (h : s.randomIn = d :: rest) :
    s.afterDraw = { s with randomIn := rest } := by
  simp [State.afterDraw, h]

theorem afterDraw_nil {s : State} (h : s.randomIn = []) :
    s.afterDraw = { s with randomCount := s.randomCount + 1 } := by
  simp [State.afterDraw, h]

/-- RND in the terms of the draw: the masked byte in x[X], the random source after the draw. -/
theorem exec_rnd (X : Reg) (KK : Byte) (s : State) : ∃ t, exec (.rnd X KK) s = .next t ∧
    t.reg X = s.drawn &&& KK ∧ (∀ r : Reg, r ≠ X → t.reg r = s.reg r) ∧ t.randomIn = s.afterDraw.randomIn ∧
    t.randomCount = s.afterDraw.randomCount ∧ t.pc = s.pc + 2#16 ∧ KeepsAllBut [.regs, .random, .pc] s t :=
  ⟨_, rfl, by simp, fun r hr => by simp [setReg_reg_ne _ _ hr], by simp, by simp, by simp, by simp [keepsAllBut_iff]⟩

/-- Settles O39: the two sources of a draw. -/
theorem rndMasksTheDrawnByte : Obligations.RndMasksTheDrawnByte := by
  unfold Obligations.RndMasksTheDrawnByte
  intro X KK s
  have hrnd := exec_rnd X KK s
  refine ⟨fun d rest hin => ?_, fun hin => ?_⟩
  · simpa only [drawn_cons hin, afterDraw_cons hin] using hrnd
  · simpa only [drawn_nil hin, afterDraw_nil hin, hin] using hrnd

/-! ### SKP and SKNP (43_io.md R184, R185) -/

theorem isDown_lowNibble (s : State) (v : Byte) : s.isDown (lowNibble v) = s.keys.getLsbD (v.toNat % 16) := rfl

/-- Settles O41: both skip on the bit of keys the low nibble of x[X] names. -/
theorem keySkipsTestTheLowNibbleKey : Obligations.KeySkipsTestTheLowNibbleKey := by
  unfold Obligations.KeySkipsTestTheLowNibbleKey
  intro X s
  exact ⟨⟨_, rfl, skipsIf_skipIf s _ _ (by rw [isDown_lowNibble])⟩,
    ⟨_, rfl, skipsIf_skipIf s _ _ (by rw [isDown_lowNibble, Bool.not_eq_true'])⟩⟩

/-! ### Initialization (10_state.md R37) -/

theorem resetByte_glyph (g : Glyphs) (a : Fin 80) : resetByte g a.val = g[a.val] := dif_pos a.isLt

theorem resetByte_above (g : Glyphs) {a : Nat} (h : 80 ≤ a) : resetByte g a = 0#8 := dif_neg (Nat.not_lt.2 h)

/-- Under every configuration and all inputs the machine starts at the values of R37. -/
theorem isInitial_init (c : Config) (keys : BitVec 16) (bs : List Byte) (n : Nat) :
    IsInitial (State.init c keys bs n) := by
  refine ⟨fun r => ?_, rfl, rfl, fun k => ?_, rfl, rfl, resetByte_glyph c.glyphs, fun a => resetByte_above c.glyphs,
    lit_nil, rfl, rfl⟩
  · exact Vector.getElem_replicate r.isLt
  · exact Vector.getElem_replicate k.isLt

/-- Settles O47: initialization is State.init under the machine's own configuration and inputs. -/
theorem initializationSetsEveryPieceOfState : Obligations.InitializationSetsEveryPieceOfState := by
  unfold Obligations.InitializationSetsEveryPieceOfState
  exact ⟨fun s => ⟨isInitial_init _ _ _ _, rfl, rfl, rfl⟩, isInitial_init _ _ _ _, rfl⟩

end Sys2Proof.Machine
end

section
/-! Fetches and stores: a fetch past the last address faults (20_memory.md R53), and a register dump is what a later fetch
from its addresses reads (20_memory.md R61). -/

namespace Sys2Proof.Machine

variable {s : State}

/-- Settles O11: such a fetch gives no word, and the step enters the fault. -/
theorem fetchOutsideMemoryFaults : Obligations.FetchOutsideMemoryFaults := by
  unfold Obligations.FetchOutsideMemoryFaults
  intro s hrun hpc
  exact ⟨_, step_of_fetch_none hrun (fetch_none.2 (Nat.lt_of_succ_lt_succ hpc)), enterFault_entersFault s _ _⟩

theorem fetch_of_pc_le (h : s.pc.toNat ≤ 4094) :
    s.fetch = some (wordOfBytes (s.readByte s.pc.toNat) (s.readByte (s.pc.toNat + 1))) := (fetch_eq s).trans (if_pos h)

/-- LD_MEM_VX inside memory stores x[0] .. x[X] from I upward and every other byte stays (42_index_memory.md R164). -/
theorem exec_ldMemVx_of_le {X : Reg} (hm : Memory.wf s.cfg.glyphs s.mem) (hIX : s.I.toNat + X.val ≤ 4095) :
    ∃ t, exec (.ldMemVx X) s = .next t ∧ (∀ r : Reg, r ≤ X → t.readByte (s.I.toNat + r.val) = s.reg r) ∧
      (∀ a : Nat, a < s.I.toNat ∨ s.I.toNat + X.val < a → t.readByte a = s.readByte a) ∧
      t.pc = s.pc + 2#16 ∧ KeepsAllBut [.memory, .pc] s t := by
  have hlen := regsUpTo_length s X
  simp only [exec, execLdMemVx]
  split
  · next hw => have := (memWrite_none.1 hw).2; omega
  · next u hw =>
    obtain ⟨-, hu, houtside, hinside⟩ := memWrite_some hw
    refine ⟨_, rfl, fun r hr => ?_, fun a ha => ?_, by simp [hu], by simp [hu, keepsAllBut_iff, State.reg]⟩
    · have hk : r.val < (s.regsUpTo X).length := hlen ▸ Nat.lt_succ_of_le hr
      rw [applyEffect_readByte, (hinside hm).2 r.val hk, regsUpTo_getElem s X r.val hk r.isLt]
    · rw [applyEffect_readByte, houtside a (by omega)]

/-- Settles O56: pc moves on to I, where the dump has put x[0] and, next to it, x[1]. -/
theorem nextFetchSeesTheStore : Obligations.NextFetchSeesTheStore := by
  unfold Obligations.NextFetchSeesTheStore
  intro X s hm hX hIX hI
  obtain ⟨t, ht, hstored, -, hpc, -⟩ := exec_ldMemVx_of_le hm hIX
  have hpcI : t.pc.toNat = s.I.toNat := by
    rw [hpc, BitVec.toNat_add, BitVec.toNat_ofNat]; omega
  have hhigh : t.readByte s.I.toNat = s.reg 0 := hstored 0 (Fin.zero_le X)
  have hlow : t.readByte (s.I.toNat + 1) = s.reg 1 := hstored 1 hX
  refine ⟨t, ht, ?_⟩
  rw [fetch_of_pc_le (by omega), hpcI, hhigh, hlow, wordOfBytes]

end Sys2Proof.Machine
end

section
/-! Decoder and encoder (30_encoding.md R80 to R94) are inverse between the well-formed instructions and the words that
decode. -/

namespace Sys2Proof

variable {sj : Bool} {w : Word} {i : Instr}

/-! ### Decoding an encoded instruction -/

/-- The family RoundTrip, over all instructions. -/
theorem decode_encode (h : i.wf sj = true) : decode sj (encode i) = .ok i :=
  match i with
  | .cls => Laws.RoundTrip.cls sj h
  | .ret => Laws.RoundTrip.ret sj h
  | .sys NNN => Laws.RoundTrip.sys NNN sj h
  | .jp NNN => Laws.RoundTrip.jp NNN sj h
  | .call NNN => Laws.RoundTrip.call NNN sj h
  | .seImm X KK => Laws.RoundTrip.seImm X KK sj h
  | .sneImm X KK => Laws.RoundTrip.sneImm X KK sj h
  | .seReg X Y => Laws.RoundTrip.seReg X Y sj h
  | .ldImm X KK => Laws.RoundTrip.ldImm X KK sj h
  | .addImm X KK => Laws.RoundTrip.addImm X KK sj h
  | .ldReg X Y => Laws.RoundTrip.ldReg X Y sj h
  | .bitOr X Y => Laws.RoundTrip.bitOr X Y sj h
  | .bitAnd X Y => Laws.RoundTrip.bitAnd X Y sj h
  | .bitXor X Y => Laws.RoundTrip.bitXor X Y sj h
  | .addReg X Y => Laws.RoundTrip.addReg X Y sj h
  | .sub X Y => Laws.RoundTrip.sub X Y sj h
  | .shr X Y => Laws.RoundTrip.shr X Y sj h
  | .subn X Y => Laws.RoundTrip.subn X Y sj h
  | .shl X Y => Laws.RoundTrip.shl X Y sj h
  | .sneReg X Y => Laws.RoundTrip.sneReg X Y sj h
  | .ldI NNN => Laws.RoundTrip.ldI NNN sj h
  | .jpV0 NNN => Laws.RoundTrip.jpV0 NNN sj h
  | .rnd X KK => Laws.RoundTrip.rnd X KK sj h
  | .drw X Y N => Laws.RoundTrip.drw X Y N sj h
  | .skp X => Laws.RoundTrip.skp X sj h
  | .sknp X => Laws.RoundTrip.sknp X sj h
  | .ldVxDt X => Laws.RoundTrip.ldVxDt X sj h
  | .ldVxK X => Laws.RoundTrip.ldVxK X sj h
  | .ldDtVx X => Laws.RoundTrip.ldDtVx X sj h
  | .ldStVx X => Laws.RoundTrip.ldStVx X sj h
  | .addI X => Laws.RoundTrip.addI X sj h
  | .ldF X => Laws.RoundTrip.ldF X sj h
  | .ldB X => Laws.RoundTrip.ldB X sj h
  | .ldMemVx X => Laws.RoundTrip.ldMemVx X sj h
  | .ldVxMem X => Laws.RoundTrip.ldVxMem X sj h

theorem decodeBytes_encodeBytes (h : i.wf sj = true) (rest : List Byte) :
    decodeBytes sj (encodeBytes i ++ rest) = .ok (i, rest) :=
  decodeBytes_word sj (encode i) rest i (decode_encode h)

/-- Settles O3, on the word by the family RoundTrip and on its two bytes by decodeBytes_word. -/
theorem decodeOfEncodeGivesInstruction : Obligations.DecodeOfEncodeGivesInstruction := by
  unfold Obligations.DecodeOfEncodeGivesInstruction
  exact fun _ _ h => ⟨decode_encode h, decodeBytes_encodeBytes h⟩

/-! ### Encoding a decoded word -/

/-- With SYS_JUMP false no word is a SYS (R93). -/
theorem decodeGroup0_false_ne_sys (o2 o3 o4 : Nibble) (NNN : Addr) :
    decodeGroup0 false o2 o3 o4 ≠ .ok (.sys NNN) := by
  unfold decodeGroup0
  split
  · simp
  split <;> simp

/-- The words 00E0 and 00EE are CLS and RET, never SYS, and no word is a SYS with SYS_JUMP false (R93). -/
theorem wf_of_decode_sys {NNN : Addr} (h : decode sj w = .ok (.sys NNN)) : (Instr.sys NNN).wf sj = true := by
  have hw : decode sj (encode (.sys NNN)) = .ok (.sys NNN) := by rwa [encode_of_decode h]
  have hj : sj = true := by
    by_contra hj
    rw [Bool.not_eq_true] at hj
    rw [hj, encode, decode_encodeNNN] at hw
    exact decodeGroup0_false_ne_sys _ _ _ _ hw
  have hcls : NNN ≠ 0x0E0#12 := by
    rintro rfl
    cases hw.symm.trans (decode_encode (i := .cls) rfl)
  have hret : NNN ≠ 0x0EE#12 := by
    rintro rfl
    cases hw.symm.trans (decode_encode (i := .ret) rfl)
  simp [Instr.wf, hj, hcls, hret]

theorem wf_of_decode (h : decode sj w = .ok i) : i.wf sj = true := by
  cases i
  case sys NNN => exact wf_of_decode_sys h
  all_goals rfl

/-- Settles O4: the encoder gives the decoded word back, and only SYS has conditions to meet. -/
theorem encodeOfDecodeGivesWord : Obligations.EncodeOfDecodeGivesWord := by
  unfold Obligations.EncodeOfDecodeGivesWord
  exact fun _ _ _ h => ⟨encode_of_decode h, wf_of_decode h⟩

end Sys2Proof
end

section
/-! Faulting steps (30_encoding.md R84, R87; 60_exceptions.md R211 to R217): what they change, and what each kind of fault
comes from. -/

namespace Sys2Proof.Machine

variable {i : Instr} {s t : State} {k : FaultKind} {r : FaultRecord}

/-! ### A fault leaves everything but the engine -/

/-- An instruction that ends in FAULTED has done nothing but enter the fault, for one of its causes. -/
theorem exec_faulted (hrun : s.engine = .running) (h : exec i s = .next t) (ht : t.engine = .faulted r) :
    t = s.enterFault r.kind (some (encode i)) ∧ Raises i s r.kind := by
  rcases exec_cases h with ⟨k, rfl, hk⟩ | ⟨e, u, rfl, -, -, hu, -⟩
  · obtain rfl := Engine.faulted.inj ht
    exact ⟨rfl, hk⟩
  · cases e <;> simp [hu, hrun] at ht

/-- The causes of a fault of kind k in a step of a RUNNING engine, in the order they are tested (60_exceptions.md R217): the
fetch, the decoder, the handler of the instruction at pc. -/
def StepRaises (s : State) (k : FaultKind) : Prop :=
  (k = .outOfBoundsAddress ∧ s.fetch = none) ∨
  (k = .unmatchedOpcode ∧ ∃ w, s.fetch = some w ∧ decode s.cfg.sysJump w = .error .unmatched) ∨
  (∃ i, InstrAt s i ∧ Raises i s k)

/-- A step that ends in FAULTED has done nothing but enter the fault with the word at pc, for one of its causes. -/
theorem step_enters_faulted (hrun : s.engine = .running) (h : step s = .next t) (ht : t.engine = .faulted r) :
    t = s.enterFault r.kind s.fetch ∧ StepRaises s r.kind := by
  rcases step_cases s with ⟨hne, -⟩ | ⟨-, hf, e⟩ | ⟨-, w, hf, hd, e⟩ | ⟨-, w, i, hf, hd, e⟩
  · exact absurd hrun hne
  · obtain rfl := Host.Outcome.next.inj (e.symm.trans h)
    obtain rfl := Engine.faulted.inj ht
    exact ⟨by rw [hf], .inl ⟨rfl, hf⟩⟩
  · obtain rfl := Host.Outcome.next.inj (e.symm.trans h)
    obtain rfl := Engine.faulted.inj ht
    exact ⟨by rw [hf], .inr (.inl ⟨rfl, w, hf, hd⟩)⟩
  · obtain ⟨heq, hi⟩ := exec_faulted hrun (e ▸ h) ht
    exact ⟨by rw [heq, encode_of_decode hd, hf], .inr (.inr ⟨i, ⟨w, hf, hd⟩, hi⟩)⟩

/-- Settles O14: the step is the fault entry with the word at pc. -/
theorem faultingStepChangesOnlyTheEngine : Obligations.FaultingStepChangesOnlyTheEngine := by
  unfold Obligations.FaultingStepChangesOnlyTheEngine
  intro s t r hrun h ht
  rw [(step_enters_faulted hrun h ht).1]
  exact enterFault_entersFault s _ _

/-- Settles O16: the handler is the fault entry, which records pc and leaves it. -/
theorem faultKeepsThePc : Obligations.FaultKeepsThePc := by
  unfold Obligations.FaultKeepsThePc
  intro i s t r hrun h ht
  obtain ⟨rfl, -⟩ := exec_faulted hrun h ht
  exact ⟨rfl, (congrArg FaultRecord.pc (Engine.faulted.inj ht)).symm⟩

/-! ### The causes of each fault -/

/-- An instruction has causes for one kind of fault only. -/
theorem Raises.kind_eq {k' : FaultKind} (h : Raises i s k) (h' : Raises i s k') : k' = k := by
  rcases h with ⟨rfl, rfl, -⟩ | ⟨rfl, ⟨_, rfl⟩, -⟩ | ⟨rfl, ⟨_, rfl⟩, -⟩ |
    ⟨rfl, ⟨_, _, _, rfl, -⟩ | ⟨_, rfl, -⟩ | ⟨_, rfl, -⟩ | ⟨_, rfl, -⟩⟩
  all_goals simp_all [Raises]

/-- An instruction with a cause for a fault raises it. -/
theorem Raises.exec_eq (h : Raises i s k) : exec i s = .next (s.enterFault k (some (encode i))) := by
  obtain ⟨t, ht⟩ := exec_next i s
  rcases exec_cases ht with ⟨k', rfl, hk'⟩ | ⟨_, _, -, -, -, -, -, -, hk⟩
  · rw [ht, h.kind_eq hk']
  · exact absurd h (hk k)

/-- A step with a cause for a fault enters it. -/
theorem StepRaises.step_eq (hrun : s.engine = .running) (h : StepRaises s k) :
    ∃ w, step s = .next (s.enterFault k w) := by
  rcases h with ⟨rfl, hf⟩ | ⟨rfl, w, hf, hd⟩ | ⟨i, ⟨w, hf, hd⟩, hi⟩
  · exact ⟨none, step_of_fetch_none hrun hf⟩
  · exact ⟨some w, step_of_unmatched hrun hf hd⟩
  · exact ⟨some (encode i), (step_of_decode hrun hf hd).trans hi.exec_eq⟩

/-- A step of a RUNNING engine raises a fault exactly on its causes. -/
theorem faulted_iff_stepRaises (hrun : s.engine = .running) (h : step s = .next t) :
    (∃ r, t.engine = .faulted r ∧ r.kind = k) ↔ StepRaises s k := by
  constructor
  · rintro ⟨r, ht, rfl⟩
    exact (step_enters_faulted hrun h ht).2
  · intro hk
    obtain ⟨w, hw⟩ := hk.step_eq hrun
    obtain rfl := Host.Outcome.next.inj (hw.symm.trans h)
    exact ⟨_, rfl, rfl⟩

/-- The instruction at pc is well formed, so with SYS_JUMP false it is no SYS (30_encoding.md R93). -/
theorem not_instrAt_sys (hj : s.cfg.sysJump = false) (NNN : Addr) : ¬InstrAt s (.sys NNN) := by
  rintro ⟨w, -, hd⟩
  have := wf_of_decode hd
  simp [Instr.wf, hj] at this

theorem raises_unmatchedOpcode : Raises i s .unmatchedOpcode ↔ (∃ NNN, i = .sys NNN) ∧ s.cfg.sysJump = false := by
  simp [Raises]

theorem raises_stackOverflow : Raises i s .stackOverflow ↔ (∃ NNN, i = .call NNN) ∧ s.sp.val = 16 := by
  simp [Raises]

theorem raises_stackUnderflow : Raises i s .stackUnderflow ↔ i = .ret ∧ s.sp.val = 0 := by
  simp [Raises]

theorem raises_outOfBoundsAddress : Raises i s .outOfBoundsAddress ↔
    (∃ X Y N, i = .drw X Y N ∧ 1 ≤ N.val ∧ s.I.toNat + N.val - 1 > 4095) ∨
    (∃ X, i = .ldB X ∧ s.I.toNat + 2 > 4095) ∨
    (∃ X, i = .ldMemVx X ∧ s.I.toNat + X.val > 4095) ∨
    (∃ X, i = .ldVxMem X ∧ s.I.toNat + X.val > 4095) := by
  have hdrw (N : Fin 16) : (0 < N.val ∧ 4096 < s.I.toNat + N.val) ↔ (1 ≤ N.val ∧ s.I.toNat + N.val - 1 > 4095) := by
    omega
  have hbcd : 4096 < s.I.toNat + 3 ↔ s.I.toNat + 2 > 4095 := by omega
  have hregs (X : Reg) : 4096 < s.I.toNat + (X.val + 1) ↔ s.I.toNat + X.val > 4095 := by omega
  simp only [Raises, reduceCtorEq, false_and, true_and, false_or, hdrw, hbcd, hregs]

/-- The decoder alone raises UnmatchedOpcode: a SYS that would is at no pc. -/
theorem stepRaises_unmatchedOpcode : StepRaises s .unmatchedOpcode ↔
    ∃ w, s.fetch = some w ∧ decode s.cfg.sysJump w = .error .unmatched := by
  constructor
  · rintro (⟨⟨⟩, -⟩ | ⟨-, h⟩ | ⟨i, hi, hr⟩)
    · exact h
    · obtain ⟨⟨NNN, rfl⟩, hj⟩ := raises_unmatchedOpcode.1 hr
      exact absurd hi (not_instrAt_sys hj NNN)
  · exact fun h => .inr (.inl ⟨rfl, h⟩)

theorem stepRaises_stackOverflow : StepRaises s .stackOverflow ↔ s.sp.val = 16 ∧ ∃ NNN, InstrAt s (.call NNN) := by
  constructor
  · rintro (⟨⟨⟩, -⟩ | ⟨⟨⟩, -⟩ | ⟨i, hi, hr⟩)
    obtain ⟨⟨NNN, rfl⟩, hs⟩ := raises_stackOverflow.1 hr
    exact ⟨hs, NNN, hi⟩
  · rintro ⟨hs, NNN, hi⟩
    exact .inr (.inr ⟨_, hi, raises_stackOverflow.2 ⟨⟨NNN, rfl⟩, hs⟩⟩)

theorem stepRaises_stackUnderflow : StepRaises s .stackUnderflow ↔ s.sp.val = 0 ∧ InstrAt s .ret := by
  constructor
  · rintro (⟨⟨⟩, -⟩ | ⟨⟨⟩, -⟩ | ⟨i, hi, hr⟩)
    obtain ⟨rfl, hs⟩ := raises_stackUnderflow.1 hr
    exact ⟨hs, hi⟩
  · rintro ⟨hs, hi⟩
    exact .inr (.inr ⟨_, hi, raises_stackUnderflow.2 ⟨rfl, hs⟩⟩)

/-- The fetch raises OutOfBoundsAddress, and so do the four instructions that access memory through I. -/
theorem stepRaises_outOfBoundsAddress : StepRaises s .outOfBoundsAddress ↔ s.pc.toNat + 1 > 4095 ∨
    (∃ (X Y : Reg) (N : Fin 16), InstrAt s (.drw X Y N) ∧ 1 ≤ N.val ∧ s.I.toNat + N.val - 1 > 4095) ∨
    (∃ X : Reg, InstrAt s (.ldB X) ∧ s.I.toNat + 2 > 4095) ∨
    (∃ X : Reg, InstrAt s (.ldMemVx X) ∧ s.I.toNat + X.val > 4095) ∨
    (∃ X : Reg, InstrAt s (.ldVxMem X) ∧ s.I.toNat + X.val > 4095) := by
  constructor
  · rintro (⟨-, hf⟩ | ⟨⟨⟩, -⟩ | ⟨i, hi, hr⟩)
    · exact .inl (Nat.succ_lt_succ (fetch_none.1 hf))
    · right
      rcases raises_outOfBoundsAddress.1 hr with ⟨X, Y, N, rfl, hb⟩ | ⟨X, rfl, hb⟩ | ⟨X, rfl, hb⟩ | ⟨X, rfl, hb⟩
      · exact .inl ⟨X, Y, N, hi, hb⟩
      · exact .inr (.inl ⟨X, hi, hb⟩)
      · exact .inr (.inr (.inl ⟨X, hi, hb⟩))
      · exact .inr (.inr (.inr ⟨X, hi, hb⟩))
  · have handler {i : Instr} (hi : InstrAt s i) (hr : Raises i s .outOfBoundsAddress) :
        StepRaises s .outOfBoundsAddress := .inr (.inr ⟨i, hi, hr⟩)
    rintro (hpc | ⟨X, Y, N, hi, hb⟩ | ⟨X, hi, hb⟩ | ⟨X, hi, hb⟩ | ⟨X, hi, hb⟩)
    · exact .inl ⟨rfl, fetch_none.2 (Nat.lt_of_succ_lt_succ hpc)⟩
    · exact handler hi (raises_outOfBoundsAddress.2 (.inl ⟨X, Y, N, rfl, hb⟩))
    · exact handler hi (raises_outOfBoundsAddress.2 (.inr (.inl ⟨X, rfl, hb⟩)))
    · exact handler hi (raises_outOfBoundsAddress.2 (.inr (.inr (.inl ⟨X, rfl, hb⟩))))
    · exact handler hi (raises_outOfBoundsAddress.2 (.inr (.inr (.inr ⟨X, rfl, hb⟩))))

/-- Settles O15: a fault is raised exactly on its causes, which are the listed ones kind by kind. -/
theorem executionFaultsHaveExactlyTheListedCauses : Obligations.ExecutionFaultsHaveExactlyTheListedCauses := by
  unfold Obligations.ExecutionFaultsHaveExactlyTheListedCauses
  intro s t hrun h
  exact ⟨(faulted_iff_stepRaises hrun h).trans stepRaises_unmatchedOpcode,
    (faulted_iff_stepRaises hrun h).trans stepRaises_stackOverflow,
    (faulted_iff_stepRaises hrun h).trans stepRaises_stackUnderflow,
    (faulted_iff_stepRaises hrun h).trans stepRaises_outOfBoundsAddress⟩

end Sys2Proof.Machine
end

section
/-! Which words match no row, and the word of every row as a number (30_encoding.md R74 to R90). -/

namespace Sys2Proof

open Machine

variable {i : Instr}

/-! ### The unmatched words (30_encoding.md R89) -/

theorem decodeGroup0_error {sj : Bool} {o2 o3 o4 : Nibble} : decodeGroup0 sj o2 o3 o4 = .error .unmatched ↔
    sj = false ∧ ¬(o2 = 0x0#4 ∧ o3 = 0xE#4 ∧ o4 = 0x0#4) ∧ ¬(o2 = 0x0#4 ∧ o3 = 0xE#4 ∧ o4 = 0xE#4) := by
  unfold decodeGroup0
  split
  · next h => simp [h]
  split
  · next h => simp [h]
  · next h0 h1 => cases sj <;> simp [h0, h1]

/-- The low byte of a word is what the two low nibbles assemble to. -/
theorem immediate_nibbles_toNat (w : Word) : (immediate (nibble3 w) (nibble4 w)).toNat = w.toNat % 256 := by
  rw [immediate_toNat, nibble3_toNat, nibble4_toNat]; omega

theorem nibble4_eq_zero_iff (w : Word) : nibble4 w = 0x0#4 ↔ w.toNat % 16 = 0 := by
  rw [← nibble4_toNat, ← BitVec.toNat_inj]; rfl

/-- A word with first nibble 0 is told by its three other nibbles. -/
theorem nibbles_eq_iff_of_high_zero {w : Word} (h : w.toNat / 4096 = 0) (b c d : Nibble) :
    (nibble2 w = b ∧ nibble3 w = c ∧ nibble4 w = d) ↔ w.toNat = b.toNat * 256 + c.toNat * 16 + d.toNat := by
  have := b.isLt; have := c.isLt; have := d.isLt
  rw [← BitVec.toNat_inj, ← BitVec.toNat_inj, ← BitVec.toNat_inj, nibble2_toNat, nibble3_toNat, nibble4_toNat]
  omega

theorem decodeGroup0_nibbles_error {sj : Bool} {w : Word} (h : w.toNat / 4096 = 0) :
    decodeGroup0 sj (nibble2 w) (nibble3 w) (nibble4 w) = .error .unmatched ↔
      sj = false ∧ w.toNat ≠ 0x00E0 ∧ w.toNat ≠ 0x00EE := by
  rw [decodeGroup0_error, nibbles_eq_iff_of_high_zero h, nibbles_eq_iff_of_high_zero h]; rfl

/-- Settles O5, by the first nibble: the groups 0, 8, E and F by their sub-dispatches, 5 and 9 by the last nibble. -/
theorem unmatchedWordsAreExactlyTheListed : Obligations.UnmatchedWordsAreExactlyTheListed := by
  unfold Obligations.UnmatchedWordsAreExactlyTheListed
  intro sj w
  have hlt := w.isLt
  unfold decode decodeNibbles
  rw [nibble1_toNat]
  split
  case h_1 h => rw [decodeGroup0_nibbles_error h]; simp [h]
  case h_6 h | h_10 h => simp [nibble4_eq_zero_iff, h]
  case h_9 h => rw [decodeGroup8_error, nibble4_toNat]; simp only [h]; simp
  case h_15 h => rw [decodeGroupE_error, immediate_nibbles_toNat]; simp only [h]; simp
  case h_16 =>
    have h : w.toNat / 4096 = 15 := by simp only [imp_false] at *; omega
    rw [decodeGroupF_error, immediate_nibbles_toNat]; simp only [h]; simp
  all_goals
    next h => simp [h]

/-! ### The rows as numbers (30_encoding.md R81, R90) -/

/-- A number is an instruction's word if it is the encoder's, for an instruction that is well formed under either
SYS_JUMP. -/
theorem encodes_of_toNat {n : Nat} (hn : (encode i).toNat = n) (hwf : ∀ sj, i.wf sj = true := by exact fun _ => rfl) :
    Encodes n i :=
  ⟨fun sj => word_eq_of_toNat hn ▸ decode_encode (hwf sj), word_eq_of_toNat hn⟩

theorem encodes_NNN (o : Nibble) {NNN : Addr} (h : encode i = encodeNNN o NNN := by rfl)
    (hwf : ∀ sj, i.wf sj = true := by exact fun _ => rfl) : Encodes (o.toNat * 4096 + NNN.toNat) i :=
  encodes_of_toNat (by rw [h, encodeNNN_toNat]) hwf

theorem encodes_XKK (o : Nibble) {X : Reg} {KK : Byte} (h : encode i = encodeXKK o X KK := by rfl)
    (hwf : ∀ sj, i.wf sj = true := by exact fun _ => rfl) : Encodes (o.toNat * 4096 + 256 * X.val + KK.toNat) i :=
  encodes_of_toNat (by rw [h, encodeXKK_toNat]) hwf

/-- Format XFF: the fixed low byte stands with the opcode. -/
theorem encodes_XFF (o : Nibble) (FF : Byte) {X : Reg} (h : encode i = encodeXKK o X FF := by rfl)
    (hwf : ∀ sj, i.wf sj = true := by exact fun _ => rfl) : Encodes (o.toNat * 4096 + FF.toNat + 256 * X.val) i :=
  encodes_of_toNat (by rw [h, encodeXKK_toNat, Nat.add_right_comm]) hwf

/-- Format XYF: the fixed low nibble stands with the opcode. -/
theorem encodes_XYF (o f : Nibble) {X Y : Reg} (h : encode i = encodeXYF o X Y f := by rfl)
    (hwf : ∀ sj, i.wf sj = true := by exact fun _ => rfl) :
    Encodes (o.toNat * 4096 + f.toNat + 256 * X.val + 16 * Y.val) i :=
  encodes_of_toNat (by rw [h, encodeXYF_toNat]; omega) hwf

theorem encodes_drw (X Y : Reg) (N : Fin 16) : Encodes (0xD000 + 256 * X.val + 16 * Y.val + N.val) (.drw X Y N) :=
  encodes_of_toNat (by rw [encode, encodeXYF_toNat, fieldNibble_toNat]; rfl)

theorem encode_sys (NNN : Addr) : encode (.sys NNN) = BitVec.ofNat 16 NNN.toNat :=
  word_eq_of_toNat (by rw [encode, encodeNNN_toNat]; simp)

/-- Settles O6, format by format; SYS is well formed under SYS_JUMP true alone. -/
theorem addressAndImmediateRowsHaveTheirPatterns : Obligations.AddressAndImmediateRowsHaveTheirPatterns := by
  unfold Obligations.AddressAndImmediateRowsHaveTheirPatterns
  refine ⟨fun NNN hcls hret => ⟨?_, encode_sys NNN⟩, fun NNN => ?_, fun X KK => ?_⟩
  · have hcls' : NNN ≠ 0x0E0#12 := by rintro rfl; exact hcls rfl
    have hret' : NNN ≠ 0x0EE#12 := by rintro rfl; exact hret rfl
    rw [← encode_sys]
    exact decode_encode (by simp [Instr.wf, hcls', hret'])
  · exact ⟨encodes_NNN 0x1#4, encodes_NNN 0x2#4, encodes_NNN 0xA#4, encodes_NNN 0xB#4⟩
  · exact ⟨encodes_XKK 0x3#4, encodes_XKK 0x4#4, encodes_XKK 0x6#4, encodes_XKK 0x7#4, encodes_XKK 0xC#4⟩

/-- Settles O7, format by format. -/
theorem registerAndFixedRowsHaveTheirPatterns : Obligations.RegisterAndFixedRowsHaveTheirPatterns := by
  unfold Obligations.RegisterAndFixedRowsHaveTheirPatterns
  refine ⟨encodes_of_toNat rfl, encodes_of_toNat rfl, fun X Y => ?_, encodes_drw, fun X => ?_⟩
  · exact ⟨encodes_XYF 0x5#4 0x0#4, encodes_XYF 0x9#4 0x0#4, encodes_XYF 0x8#4 0x0#4, encodes_XYF 0x8#4 0x1#4,
      encodes_XYF 0x8#4 0x2#4, encodes_XYF 0x8#4 0x3#4, encodes_XYF 0x8#4 0x4#4, encodes_XYF 0x8#4 0x5#4,
      encodes_XYF 0x8#4 0x6#4, encodes_XYF 0x8#4 0x7#4, encodes_XYF 0x8#4 0xE#4⟩
  · exact ⟨encodes_XFF 0xE#4 0x9E#8, encodes_XFF 0xE#4 0xA1#8, encodes_XFF 0xF#4 0x07#8, encodes_XFF 0xF#4 0x0A#8,
      encodes_XFF 0xF#4 0x15#8, encodes_XFF 0xF#4 0x18#8, encodes_XFF 0xF#4 0x1E#8, encodes_XFF 0xF#4 0x29#8,
      encodes_XFF 0xF#4 0x33#8, encodes_XFF 0xF#4 0x55#8, encodes_XFF 0xF#4 0x65#8⟩

/-! ### Splitting and assembling (30_encoding.md R74 to R79) -/

/-- Settles O1, by the splitter's four laws. -/
theorem nibblesSplitTheWord : Obligations.NibblesSplitTheWord := by
  unfold Obligations.NibblesSplitTheWord
  exact ⟨fun w => ⟨nibble1_toNat w, nibble2_toNat w, nibble3_toNat w, nibble4_toNat w⟩, by decide⟩

/-- Settles O2, by the laws of operand assembly. -/
theorem operandsAreAssembledFromNibbles : Obligations.OperandsAreAssembledFromNibbles := by
  unfold Obligations.OperandsAreAssembledFromNibbles
  exact ⟨absoluteAddress_toNat, rfl, immediate_toNat, rfl, fun _ => rfl⟩

/-- Settles O8: all but the last word are the bytes the encoder gives. -/
theorem writtenOutWordsDecode : Obligations.WrittenOutWordsDecode := by
  unfold Obligations.WrittenOutWordsDecode
  refine ⟨fun sj => ?_, decodeBytes_encodeBytes (i := .sys 0x123#12) rfl [], rfl⟩
  exact ⟨decodeBytes_encodeBytes (i := .ldImm 0 5#8) rfl [], decodeBytes_encodeBytes (i := .ldImm 1 3#8) rfl [],
    decodeBytes_encodeBytes (i := .addReg 0 1) rfl [], decodeBytes_encodeBytes (i := .jp 0x204#12) rfl [],
    decodeBytes_encodeBytes (i := .ldMemVx 3) rfl [], decodeBytes_encodeBytes (i := .drw 1 2 5) rfl [],
    decodeBytes_encodeBytes (i := .cls) rfl [], decodeBytes_encodeBytes (i := .ret) rfl []⟩

end Sys2Proof
end

section
/-! The step in each engine state, SYS, LD_VX_K, and how FAULTED is left. -/

namespace Sys2Proof.Machine

/-! ### The step (30_encoding.md R70 to R73, R84) -/

/-- Settles O9: the fetched word is made of the two bytes at pc. -/
theorem stepExecutesTheDecodedInstruction : Obligations.StepExecutesTheDecodedInstruction := by
  unfold Obligations.StepExecutesTheDecodedInstruction
  intro s i hrun hpc hd
  exact step_of_decode hrun (fetch_of_pc_le (Nat.le_of_succ_le_succ hpc)) hd

/-- Settles O10: the engine state is tested before the fetch. -/
theorem stepWhileAwaitingKeyChangesNothing : Obligations.StepWhileAwaitingKeyChangesNothing := by
  unfold Obligations.StepWhileAwaitingKeyChangesNothing
  exact fun _ _ => step_awaiting

/-- Settles O12: the step enters the decoder's fault. -/
theorem unmatchedWordFaults : Obligations.UnmatchedWordFaults := by
  unfold Obligations.UnmatchedWordFaults
  intro s w hrun hf hd
  exact ⟨_, step_of_unmatched hrun hf hd, enterFault_entersFault s _ _⟩

/-! ### SYS and LD_VX_K (40_control_flow.md R101, 43_io.md R187) -/

theorem exec_sys_of_sysJump {s : State} (NNN : Addr) (hj : s.cfg.sysJump = true) :
    exec (.sys NNN) s = .next (s.applyEffect (.jump (absoluteTarget NNN))) := if_pos hj

theorem exec_sys_of_not_sysJump {s : State} (NNN : Addr) (hj : s.cfg.sysJump = false) :
    exec (.sys NNN) s = raise .unmatchedOpcode (.sys NNN) s := if_neg (by simp [hj])

/-- Settles O22, by the value of SYS_JUMP. -/
theorem sysIsTheLegacyJump : Obligations.SysIsTheLegacyJump := by
  unfold Obligations.SysIsTheLegacyJump
  intro NNN s
  refine ⟨fun hj => ⟨_, exec_sys_of_sysJump NNN hj, ?_⟩, fun hj => ?_⟩
  · rw [← absoluteTarget_toNat]; exact jumpsTo_jump s _
  · rw [exec_sys_of_not_sysJump NNN hj, ← encode_sys]; exact raise_entersFault _ _ s

/-- Settles O43: the handler's effect suspends the engine and touches nothing else. -/
theorem ldVxKSuspendsTheEngine : Obligations.LdVxKSuspendsTheEngine := by
  unfold Obligations.LdVxKSuspendsTheEngine
  exact fun X s => ⟨_, rfl, rfl, exec_keepsAllBut (i := .ldVxK X) rfl⟩

/-! ### Leaving FAULTED (30_encoding.md R72, 60_exceptions.md R215) -/

theorem keyPress_of_faulted {s : State} {r : FaultRecord} (h : s.engine = .faulted r) (k : Key) : s.keyPress k = s := by
  simp [State.keyPress, h]

/-- An image that is too long leaves the machine as it is (60_exceptions.md R216). -/
theorem load_of_length_gt {image : List Byte} (s : State) (h : 3584 < image.length) :
    s.load (some image) = (some .loadOverflow, s) := if_pos h

/-- Settles O50, event by event: init, reset and a load that fits are the exceptions, and every other event keeps the
engine state. -/
theorem faultedEngineIsLeftOnlyByInitialization : Obligations.FaultedEngineIsLeftOnlyByInitialization := by
  unfold Obligations.FaultedEngineIsLeftOnlyByInitialization
  intro s r h
  refine ⟨step_faulted h, fun e he => ?_⟩
  cases e with
  | init => exact .inl rfl
  | reset => exact .inr (.inl rfl)
  | keyPress k => exact absurd ((congrArg State.engine (keyPress_of_faulted h k)).trans h) he
  | tick | setKeys v | supplyRandom bs => exact absurd h he
  | load source =>
    cases source with
    | none => exact absurd h he
    | some image =>
      refine .inr (.inr ⟨image, ?_, rfl⟩)
      by_contra hl
      exact he ((congrArg (State.engine ∘ Prod.snd) (load_of_length_gt s (Nat.not_le.1 hl))).trans h)

end Sys2Proof.Machine
end

section
/-! CALL followed by RET, the jumps to an address and the register skips (40_control_flow.md R100 to R108). -/

namespace Sys2Proof.Machine

/-! ### CALL followed by RET (40_control_flow.md R100, R103) -/

/-- A RET right after a CALL pops the address of the CALL, which stays in the slot they used. -/
theorem exec_call_then_ret {s : State} (NNN : Addr) {k : Fin 16} (hs : s.sp.val = k.val) :
    ∃ t, exec (.call NNN) s = .next t ∧
      exec .ret t = .next { s with stack := s.stack.set k.val s.pc, pc := s.pc + 2#16 } := by
  refine ⟨_, exec_call_of_slot NNN hs, (exec_ret_of_pos (k := k) rfl).trans ?_⟩
  have hsp : k.castSucc = s.sp := Fin.ext hs.symm
  simp [hsp]

/-- Settles O51, in the first free slot k: the pair writes pc and slot k alone. -/
theorem callThenReturnRestoresPcAndSp : Obligations.CallThenReturnRestoresPcAndSp := by
  unfold Obligations.CallThenReturnRestoresPcAndSp
  intro NNN s hs
  obtain ⟨k, hk⟩ := (sp_eq_full_or_slot s).resolve_left (Nat.ne_of_lt hs)
  obtain ⟨t, hcall, hret⟩ := exec_call_then_ret NNN hk
  refine ⟨t, _, hcall, hret, rfl, rfl, ?_, fun j hj => ?_⟩
  · simp [keepsAllBut_iff, State.reg, State.readByte]
  · exact Vector.getElem_set_ne k.isLt j.isLt fun hkj => hj (hkj.symm.trans hk.symm)

/-! ### JP and JP_V0 (40_control_flow.md R102, R108) -/

/-- Settles O21: the word is of format NNN, and the handler's effect is the jump to the address. -/
theorem jpJumpsToItsAddress : Obligations.JpJumpsToItsAddress := by
  unfold Obligations.JpJumpsToItsAddress
  refine fun NNN => ⟨encodes_NNN 0x1#4, fun s => ⟨_, rfl, ?_⟩⟩
  rw [← absoluteTarget_toNat]; exact jumpsTo_jump s _

/-- Settles O26: the sum fits in a word, so the target is the exact sum. -/
theorem jpV0JumpsToTheExactSum : Obligations.JpV0JumpsToTheExactSum := by
  unfold Obligations.JpV0JumpsToTheExactSum
  refine fun NNN s => ⟨_, rfl, ?_⟩
  rw [← offsetTarget_toNat]; exact jumpsTo_jump s _

/-! ### The register skips (40_control_flow.md R104 to R107) -/

/-- Settles O24: each skips on the test its handler makes of x[X] and KK. -/
theorem immediateSkipsCompareTheRegister : Obligations.ImmediateSkipsCompareTheRegister := by
  unfold Obligations.ImmediateSkipsCompareTheRegister
  exact fun X KK s => ⟨⟨_, rfl, skipsIf_skipIf s _ _ beq_iff_eq⟩, ⟨_, rfl, skipsIf_skipIf s _ _ bne_iff_ne⟩⟩

/-- Settles O25: each skips on the test its handler makes of x[X] and x[Y]. -/
theorem registerSkipsCompareTheRegisters : Obligations.RegisterSkipsCompareTheRegisters := by
  unfold Obligations.RegisterSkipsCompareTheRegisters
  exact fun X Y s => ⟨⟨_, rfl, skipsIf_skipIf s _ _ beq_iff_eq⟩, ⟨_, rfl, skipsIf_skipIf s _ _ bne_iff_ne⟩⟩

end Sys2Proof.Machine
end

section
/-! Loads, arithmetic, logic and shifts (41_alu.md R133 to R144). -/

namespace Sys2Proof.Machine

variable {i : Instr} {s : State} {X : Reg} {v r f : Byte}

/-! ### The writes of one register (41_alu.md R133 to R138) -/

/-- An instruction that ends in the write of one register leaves its value there. -/
theorem exec_writesOnlyReg (h : exec i s = finish .next (s.setReg X v) := by rfl) :
    ∃ t, exec i s = .next t ∧ WritesOnlyReg X v s t :=
  ⟨_, h, writesOnlyReg_setReg s X v⟩

/-- Settles O28: the word is of format XKK, and the handler writes KK to x[X]. -/
theorem ldImmSetsTheRegister : Obligations.LdImmSetsTheRegister := by
  unfold Obligations.LdImmSetsTheRegister
  exact fun X KK => ⟨encodes_XKK 0x6#4, fun s => exec_writesOnlyReg⟩

/-- Settles O29: the handler writes sum8, whose number is the sum modulo 256. -/
theorem addImmAddsWithoutFlag : Obligations.AddImmAddsWithoutFlag := by
  unfold Obligations.AddImmAddsWithoutFlag
  intro X KK s
  rw [← sum8_toNat, BitVec.ofNat_toNat, BitVec.setWidth_eq]
  exact exec_writesOnlyReg

/-- Settles O30: each of the four handlers is a write of x[X]. -/
theorem copyAndBitwiseWriteOnlyTheDestination : Obligations.CopyAndBitwiseWriteOnlyTheDestination := by
  unfold Obligations.CopyAndBitwiseWriteOnlyTheDestination
  exact fun X Y s => ⟨exec_writesOnlyReg, exec_writesOnlyReg, exec_writesOnlyReg, exec_writesOnlyReg⟩

/-! ### The writes of a result and a flag (41_alu.md R132, R139 to R144) -/

/-- An instruction that ends in WriteDestAndFlag leaves the result and the flag, given as numbers. -/
theorem exec_writesResultAndFlag {n m : Nat} (hr : r.toNat = n) (hf : f.toNat = m)
    (h : exec i s = finish .next (s.writeDestAndFlag X r f) := by rfl) :
    ∃ t, exec i s = .next t ∧ WritesResultAndFlag X n m s t := by
  subst hr hf
  exact ⟨_, h, writesResultAndFlag_writeDestAndFlag s X r f⟩

/-- The shifted operand is the register that SHIFT_SOURCE names (41_alu.md R142). -/
theorem shiftSource_eq {Y : Reg} (hx : s.cfg.shiftSource = .x → v = s.reg X)
    (hy : s.cfg.shiftSource = .y → v = s.reg Y) : s.shiftSource X Y = v := by
  unfold State.shiftSource
  split
  · next h => exact (hx h).symm
  · next h => exact (hy h).symm

/-- Settles O31: the word is of format XYF, and the handler writes the sum and the carry. -/
theorem addRegAddsWithCarryFlag : Obligations.AddRegAddsWithCarryFlag := by
  unfold Obligations.AddRegAddsWithCarryFlag
  exact fun X Y => ⟨encodes_XYF 0x8#4 0x4#4, fun s => exec_writesResultAndFlag (sum8_toNat _ _) (carryFlag_toNat _ _)⟩

/-- Settles O32: the two handlers differ in which register is the minuend. -/
theorem subtractsSetTheNoBorrowFlag : Obligations.SubtractsSetTheNoBorrowFlag := by
  unfold Obligations.SubtractsSetTheNoBorrowFlag
  exact fun X Y s => ⟨exec_writesResultAndFlag (difference8_toNat _ _) (noBorrowFlag_toNat _ _),
    exec_writesResultAndFlag (difference8_toNat _ _) (noBorrowFlag_toNat _ _)⟩

/-- Settles O33: both handlers shift the operand v, and the flag is v's lowest or highest bit. -/
theorem shiftsMoveOneBitIntoTheFlag : Obligations.ShiftsMoveOneBitIntoTheFlag := by
  unfold Obligations.ShiftsMoveOneBitIntoTheFlag
  intro X Y s v hx hy
  obtain rfl := shiftSource_eq hx hy
  exact ⟨exec_writesResultAndFlag (half8_toNat _) (shiftedOutLow_toNat _),
    exec_writesResultAndFlag (double8_toNat _) (shiftedOutHigh_toNat _)⟩

end Sys2Proof.Machine
end

section
/-! The index register, and memory through it (42_index_memory.md R160 to R166): BCD, register dump and register load. -/

namespace Sys2Proof.Machine

variable {i : Instr} {s : State} {k : FaultKind}

/-! ### The writes of I (42_index_memory.md R160 to R162) -/

/-- An instruction that ends in the write of I leaves its value, given as a number, there. -/
theorem exec_writesIndex {v : Word} {n : Nat} (hv : v.toNat = n)
    (h : exec i s = finish .next { s with I := v } := by rfl) :
    ∃ t, exec i s = .next t ∧ t.I.toNat = n ∧ t.pc = s.pc + 2#16 ∧ KeepsAllBut [.I, .pc] s t :=
  ⟨_, h, hv, rfl, by simp [keepsAllBut_iff, State.reg, State.readByte]⟩

/-- Settles O34: each handler writes I, with the value of its operand form. -/
theorem indexInstructionsWriteOnlyI : Obligations.IndexInstructionsWriteOnlyI := by
  unfold Obligations.IndexInstructionsWriteOnlyI
  exact ⟨fun NNN _ => exec_writesIndex (absoluteTarget_toNat NNN),
    fun X s => exec_writesIndex (indexSum_toNat s.I (s.reg X)),
    fun X s => exec_writesIndex (glyphAddress_toNat (lowNibble (s.reg X)))⟩

/-! ### Accesses outside memory (20_memory.md R53) -/

/-- An instruction with a cause for a fault enters it with its own word. -/
theorem Raises.exec_entersFault {w : Word} (h : Raises i s k) (hw : encode i = w) :
    ∃ t, exec i s = .next t ∧ EntersFault k (some w) s t :=
  ⟨_, h.exec_eq, hw ▸ enterFault_entersFault s k _⟩

/-! ### BCD (42_index_memory.md R163) -/

theorem bcdDigits_toNat (v : Byte) :
    (bcdDigits v).map BitVec.toNat = [v.toNat / 100, v.toNat / 10 % 10, v.toNat % 10] := by
  have := v.isLt
  simp only [bcdDigits, List.map_cons, List.map_nil, BitVec.toNat_ofNat, List.cons.injEq, and_true]
  omega

/-- LD_B inside memory stores the digits from I upward and every other byte stays. -/
theorem exec_ldB_of_le {X : Reg} (hm : Memory.wf s.cfg.glyphs s.mem) (hI : s.I.toNat + 2 ≤ 4095) :
    ∃ t, exec (.ldB X) s = .next t ∧
      (∀ (j : Nat) (hj : j < (bcdDigits (s.reg X)).length), t.readByte (s.I.toNat + j) = (bcdDigits (s.reg X))[j]) ∧
      (∀ a : Nat, a < s.I.toNat ∨ s.I.toNat + 2 < a → t.readByte a = s.readByte a) ∧
      t.pc = s.pc + 2#16 ∧ KeepsAllBut [.memory, .pc] s t := by
  have hlen := bcdDigits_length (s.reg X)
  simp only [exec, execLdB]
  split
  · next hw => have := (memWrite_none.1 hw).2; omega
  · next u hw =>
    obtain ⟨-, hu, houtside, hinside⟩ := memWrite_some hw
    refine ⟨_, rfl, fun j hj => ?_, fun a ha => ?_, by simp [hu], by simp [hu, keepsAllBut_iff, State.reg]⟩
    · rw [applyEffect_readByte, (hinside hm).2 j hj]
    · rw [applyEffect_readByte, houtside a (by omega)]

/-- Settles O35: the three stored bytes are the digits, and an access outside memory is a cause for the fault. -/
theorem ldBStoresTheThreeDigits : Obligations.LdBStoresTheThreeDigits := by
  unfold Obligations.LdBStoresTheThreeDigits
  refine ⟨fun X s hm hI => ?_, fun X s hI => ?_⟩
  · obtain ⟨t, ht, hstored, hrest⟩ := exec_ldB_of_le (X := X) hm hI
    obtain ⟨hhundreds, htens, hones⟩ :
        ((bcdDigits (s.reg X))[0]).toNat = (s.reg X).toNat / 100 ∧
        ((bcdDigits (s.reg X))[1]).toNat = (s.reg X).toNat / 10 % 10 ∧
        ((bcdDigits (s.reg X))[2]).toNat = (s.reg X).toNat % 10 := by
      simpa [bcdDigits] using bcdDigits_toNat (s.reg X)
    exact ⟨t, ht, hstored 0 (by simp) ▸ hhundreds, hstored 1 (by simp) ▸ htens, hstored 2 (by simp) ▸ hones, hrest⟩
  · exact (raises_outOfBoundsAddress.2 (.inr (.inl ⟨X, rfl, hI⟩))).exec_entersFault (encodes_XFF 0xF#4 0x33#8).2

/-! ### Register dump and load (42_index_memory.md R164, R165) -/

/-- Settles O36: exec_ldMemVx_of_le inside memory, the fault outside. -/
theorem ldMemVxDumpsTheRegisters : Obligations.LdMemVxDumpsTheRegisters := by
  unfold Obligations.LdMemVxDumpsTheRegisters
  refine ⟨fun X s hm hIX => exec_ldMemVx_of_le hm hIX, fun X s hIX => ?_⟩
  exact (raises_outOfBoundsAddress.2 (.inr (.inr (.inl ⟨X, rfl, hIX⟩)))).exec_entersFault (encodes_XFF 0xF#4 0x55#8).2

/-- The bytes written from x[0] upward are in the registers they reach, and the registers above stay. -/
theorem reg_writeRegs (s : State) (bs : List Byte) (r : Reg) :
    State.reg { s with x := writeRegs s.x 0 bs } r = if h : r.val < bs.length then bs[r.val] else s.reg r := by
  simp [State.reg, writeRegs_getElem]

/-- LD_VX_MEM inside memory loads x[0] .. x[X] from I upward and every other register stays. -/
theorem exec_ldVxMem_of_le {X : Reg} (hIX : s.I.toNat + X.val ≤ 4095) :
    ∃ t, exec (.ldVxMem X) s = .next t ∧ (∀ r : Reg, r ≤ X → t.reg r = s.readByte (s.I.toNat + r.val)) ∧
      (∀ r : Reg, X < r → t.reg r = s.reg r) ∧ t.pc = s.pc + 2#16 ∧ KeepsAllBut [.regs, .pc] s t := by
  simp only [exec, execLdVxMem]
  split
  · next hr => have := (memRead_none.1 hr).2; omega
  · next bs hr =>
    obtain ⟨-, hlen, hbytes⟩ := memRead_some hr
    refine ⟨_, rfl, fun r hrX => ?_, fun r hXr => ?_, rfl, by simp [keepsAllBut_iff, State.readByte]⟩
    · have hrl : r.val < bs.length := hlen ▸ Nat.lt_succ_of_le hrX
      rw [applyEffect_reg, reg_writeRegs, dif_pos hrl, hbytes r.val hrl]
    · have hrl : ¬r.val < bs.length := hlen ▸ Nat.not_lt.2 hXr
      rw [applyEffect_reg, reg_writeRegs, dif_neg hrl]

/-- Settles O37: exec_ldVxMem_of_le inside memory, the fault outside. -/
theorem ldVxMemLoadsTheRegisters : Obligations.LdVxMemLoadsTheRegisters := by
  unfold Obligations.LdVxMemLoadsTheRegisters
  refine ⟨fun X s hIX => exec_ldVxMem_of_le hIX, fun X s hIX => ?_⟩
  exact (raises_outOfBoundsAddress.2 (.inr (.inr (.inr ⟨X, rfl, hIX⟩)))).exec_entersFault (encodes_XFF 0xF#4 0x65#8).2

/-- Settles O52: the dump keeps I, so the load reads the bytes the dump stored. -/
theorem dumpThenLoadRestoresTheRegisters : Obligations.DumpThenLoadRestoresTheRegisters := by
  unfold Obligations.DumpThenLoadRestoresTheRegisters
  intro X s x' hm hIX
  obtain ⟨t, ht, hstored, -, -, hkeeps⟩ := exec_ldMemVx_of_le hm hIX
  have hI : t.I = s.I := hkeeps .I (by simp)
  obtain ⟨u, hu, hloaded, -⟩ := exec_ldVxMem_of_le (s := { t with x := x' }) (hI ▸ hIX)
  refine ⟨t, u, ht, hu, fun r hr => ?_⟩
  calc u.reg r = t.readByte (t.I.toNat + r.val) := hloaded r hr
    _ = s.reg r := by rw [hI]; exact hstored r hr

end Sys2Proof.Machine
end

section
/-! DRW (43_io.md R182, R183): the pixels, the collision flag, and the same sprite drawn twice. -/

namespace Sys2Proof.Machine

variable {s t : State} {X Y : Reg} {N : Fin 16}

/-! ### One sprite -/

/-- A sprite that is inside memory is read, drawn, and pc advances. -/
theorem exec_drw_of_inBounds (hin : inBounds s.I.toNat N.val) : ∃ rows, s.memRead s.I.toNat N.val = some rows ∧
    exec (.drw X Y N) s = .next ((s.drawSprite (s.reg X) (s.reg Y) rows).applyEffect .next) := by
  have hread := (memRead_eq s s.I.toNat N.val).trans (if_pos hin)
  refine ⟨_, hread, ?_⟩
  simp only [exec, execDrw, hread, finish]

/-- Settles O40: the drawn sprite of drawSprite_spec inside memory, the fault outside. -/
theorem drwXorsTheSpriteAndReportsCollision : Obligations.DrwXorsTheSpriteAndReportsCollision := by
  unfold Obligations.DrwXorsTheSpriteAndReportsCollision
  refine ⟨fun X Y N s hfb hin => ?_, fun X Y N s hN hout => ?_⟩
  · obtain ⟨rows, hread, hexec⟩ := exec_drw_of_inBounds (X := X) (Y := Y) hin
    obtain ⟨hlit, hflag, hcollision, hregs⟩ := drawSprite_spec hfb.1 hread (s.reg X) (s.reg Y)
    refine ⟨_, hexec, hlit, ?_, (BitVec.toNat_inj (y := 1#8)).trans hcollision, hregs, rfl, ?_⟩
    · exact hflag.imp (congrArg BitVec.toNat) (congrArg BitVec.toNat)
    · simp [keepsAllBut_iff]
  · exact (raises_outOfBoundsAddress.2 (.inl ⟨X, Y, N, rfl, hN, hout⟩)).exec_entersFault (encodes_drw X Y N).2

/-! ### The same sprite twice -/

/-- The hits depend on the sprite's bytes, I and the size of the framebuffer alone. -/
theorem spriteHits_congr (hI : t.I = s.I) (hcfg : t.cfg = s.cfg) (hmem : ∀ a, t.readByte a = s.readByte a)
    (x0 y0 n : Nat) (p : Pixel) : SpriteHits t x0 y0 n p = SpriteHits s x0 y0 n p := by
  simp only [SpriteHits, SpriteBit, SpritePixel, hI, hcfg, hmem]

/-- A set bit of the sprite hits the pixel it falls on. -/
theorem spriteHits_pos {n r c : Nat} (hr : r < n) (hc : c < 8) (hbit : SpriteBit s r c = true) (x0 y0 : Nat) :
    1 ≤ SpriteHits s x0 y0 n (SpritePixel s x0 y0 r c) :=
  List.countP_pos_iff.2 ⟨(r, c), List.mem_product.2 ⟨List.mem_range.2 hr, List.mem_range.2 hc⟩, by simp [hbit]⟩

/-- Settles O53, from what O40 says of each draw: the second flips every pixel as often as the first did, and a set bit
that cleared nothing at first left its pixel lit. -/
theorem drawingTwiceRestoresTheFramebuffer : Obligations.DrawingTwiceRestoresTheFramebuffer := by
  unfold Obligations.DrawingTwiceRestoresTheFramebuffer
  intro X Y N s hcfg hfb hin
  have draw := drwXorsTheSpriteAndReportsCollision.1
  obtain ⟨t, ht, hlit, -, hcollision, -, -, hkeeps⟩ := draw X Y N s hfb hin
  refine ⟨t, ht, fun hX hY => ?_⟩
  have hI : t.I = s.I := hkeeps .I (by simp)
  have htcfg : t.cfg = s.cfg := hkeeps .cfg (by simp)
  have hmem : ∀ a, t.readByte a = s.readByte a := hkeeps .memory (by simp)
  have htfb := exec_fb_wf ht hcfg hfb
  obtain ⟨u, hu, hlit', -, hcollision', -⟩ := draw X Y N t htfb (by rwa [hI])
  have hufb := exec_fb_wf hu (by rwa [htcfg]) htfb
  simp only [hX, hY, spriteHits_congr hI htcfg hmem] at hlit' hcollision'
  refine ⟨u, hu, framebuffer_ext hufb.1 hfb.1 fun p => ?_, fun hclear hset => hcollision'.2 ?_⟩
  · rw [hlit', hlit, Bool.xor_assoc, Bool.xor_self, Bool.xor_false]
  · obtain ⟨r, c, hr, hc, hbit⟩ := hset
    have hpos := spriteHits_pos hr hc hbit (s.reg X).toNat (s.reg Y).toNat
    refine ⟨_, hpos, .inl ?_⟩
    obtain ⟨hoff, honce⟩ := not_or.1 fun h =>
      Nat.zero_ne_one (hclear.symm.trans (hcollision.2 ⟨_, hpos, h⟩))
    have hone := Nat.le_antisymm (Nat.le_of_not_lt honce) hpos
    rw [hlit, hone, Bool.eq_false_of_not_eq_true hoff]; rfl

end Sys2Proof.Machine
end

section
/-! CLS, the timer instructions, the key press, and the life of AWAITING_KEY (43_io.md R180, R186 to R192; 60_exceptions.md
R228). -/

namespace Sys2Proof.Machine

variable {s t : State} {X : Reg}

/-! ### CLS and the timers (43_io.md R180, R186, R190, R191) -/

/-- Settles O38: no pixel is listed, and the frame is the instruction's row. -/
theorem clsTurnsEveryPixelOff : Obligations.ClsTurnsEveryPixelOff := by
  unfold Obligations.ClsTurnsEveryPixelOff
  exact fun s => ⟨_, rfl, lit_nil, rfl, exec_keepsAllBut (i := .cls) rfl⟩

/-- Settles O42: a register write, and two timer writes whose frames are the instructions' rows. -/
theorem timerInstructionsMoveOneByte : Obligations.TimerInstructionsMoveOneByte := by
  unfold Obligations.TimerInstructionsMoveOneByte
  exact fun X s => ⟨exec_writesOnlyReg, ⟨_, rfl, rfl, rfl, exec_keepsAllBut (i := .ldDtVx X) rfl⟩,
    ⟨_, rfl, rfl, rfl, exec_keepsAllBut (i := .ldStVx X) rfl⟩⟩

/-! ### The key press (43_io.md R188, R192) -/

theorem keyPress_of_awaiting (h : s.engine = .awaitingKey X) (k : Key) :
    s.keyPress k = { s.setReg X (BitVec.ofNat 8 k.val) with pc := s.pc + 2#16, engine := .running } := by
  simp [State.keyPress, h]

theorem keyPress_of_running (h : s.engine = .running) (k : Key) : s.keyPress k = s := by simp [State.keyPress, h]

/-- Settles O44: the register write, with pc and engine beside it. -/
theorem keyPressCompletesTheAwait : Obligations.KeyPressCompletesTheAwait := by
  unfold Obligations.KeyPressCompletesTheAwait
  intro s X k h
  rw [keyPress_of_awaiting h]
  refine ⟨setReg_reg_same s X _, fun r hr => setReg_reg_ne s _ hr, rfl, rfl, ?_⟩
  simp [keepsAllBut_iff, State.readByte]

/-- Settles O45, by the two other engine states. -/
theorem keyPressOutsideTheAwaitIsDropped : Obligations.KeyPressOutsideTheAwaitIsDropped := by
  unfold Obligations.KeyPressOutsideTheAwaitIsDropped
  intro s k h
  cases hs : s.engine with
  | running => exact keyPress_of_running hs k
  | awaitingKey X => exact absurd hs (h X)
  | faulted r => exact keyPress_of_faulted hs k

/-! ### AWAITING_KEY from entry to exit (60_exceptions.md R228) -/

/-- A load leaves the machine as it is, or it has an image and starts the machine anew. -/
theorem load_cases (s : State) (source : Option (List Byte)) :
    (s.load source).2 = s ∨ (∃ image, source = some image) ∧ (s.load source).2.engine = .running := by
  cases source with
  | none => exact .inl rfl
  | some image =>
    simp only [State.load]
    split
    · exact .inl rfl
    · exact .inr ⟨⟨image, rfl⟩, rfl⟩

/-- No host event suspends or faults the engine. -/
theorem after_engine (s : State) (e : HostEvent) : (s.after e).engine = s.engine ∨ (s.after e).engine = .running := by
  cases e with
  | tick | setKeys v | supplyRandom bs => exact .inl rfl
  | init | reset => exact .inr rfl
  | load source => exact (load_cases s source).imp (congrArg State.engine) And.right
  | keyPress k =>
    by_cases h : ∃ X, s.engine = .awaitingKey X
    · obtain ⟨X, hX⟩ := h
      exact .inr (congrArg State.engine (keyPress_of_awaiting hX k))
    · exact .inl (congrArg State.engine (keyPressOutsideTheAwaitIsDropped s k (not_exists.1 h)))

/-- An instruction that suspends the engine is LD_VX_K. -/
theorem eq_ldVxK_of_exec_awaiting {i : Instr} (h : exec i s = .next t) (ht : t.engine = .awaitingKey X)
    (hne : s.engine ≠ t.engine) : i = .ldVxK X := by
  rcases exec_cases h with ⟨k, rfl, -⟩ | ⟨e, u, rfl, hi, -, hu, -⟩
  · cases ht
  · cases e with
    | suspend Y => obtain rfl := Engine.awaitingKey.inj ht; exact hi
    | next | skip | jump target => exact absurd hu.symm hne

/-- A step that suspends the engine has run the LD_VX_K at pc. -/
theorem instrAt_ldVxK_of_step_awaiting (h : step s = .next t) (ht : t.engine = .awaitingKey X)
    (hne : s.engine ≠ t.engine) : s.engine = .running ∧ InstrAt s (.ldVxK X) := by
  rcases step_cases s with ⟨-, e⟩ | ⟨-, -, e⟩ | ⟨-, w, -, -, e⟩ | ⟨hrun, w, i, hf, hd, e⟩
  · exact absurd (congrArg State.engine (Host.Outcome.next.inj (e.symm.trans h))) hne
  · obtain rfl := Host.Outcome.next.inj (e.symm.trans h); cases ht
  · obtain rfl := Host.Outcome.next.inj (e.symm.trans h); cases ht
  · obtain rfl := eq_ldVxK_of_exec_awaiting (e ▸ h) ht hne
    exact ⟨hrun, w, hf, hd⟩

/-- What an action that leaves the engine awaiting a key has done to s: a tick has changed the timers, the host its own
inputs, and nothing else has changed (43_io.md R189). -/
def SurvivesAwait (a : Action) (s t : State) : Prop :=
  KeepsAllBut [.DT, .ST, .keys, .random] s t ∧ (a ≠ .event .tick → t.DT = s.DT ∧ t.ST = s.ST)

/-- How an action from s to t ends the await that was to write x[X]: a key press, or the host starts the machine anew. -/
def EndsAwait (X : Reg) (a : Action) (s t : State) : Prop :=
  (∃ k, a = .event (.keyPress k) ∧ KeepsAllBut [.regs, .pc, .engine] s t ∧ ∀ r : Reg, r ≠ X → t.reg r = s.reg r) ∨
  a = .event .init ∨ a = .event .reset ∨ ∃ image, a = .event (.load (some image))

theorem survivesAwait_refl (a : Action) (s : State) : SurvivesAwait a s s :=
  ⟨by simp [keepsAllBut_iff], fun _ => ⟨rfl, rfl⟩⟩

/-- An action from AWAITING_KEY(X) leaves the await as it is, or ends it and makes the engine RUNNING. -/
theorem act_of_awaiting {a : Action} (hs : s.engine = .awaitingKey X) (h : act a s = .next t) :
    t.engine = s.engine ∧ SurvivesAwait a s t ∨ t.engine = .running ∧ EndsAwait X a s t := by
  cases a with
  | step =>
    obtain rfl := Host.Outcome.next.inj ((step_awaiting hs).symm.trans h)
    exact .inl ⟨rfl, survivesAwait_refl _ s⟩
  | event e =>
    obtain rfl := Host.Outcome.next.inj h
    cases e with
    | keyPress k =>
      obtain ⟨-, hregs, -, hrun, hkeeps⟩ := keyPressCompletesTheAwait s X k hs
      exact .inr ⟨hrun, .inl ⟨k, rfl, hkeeps, hregs⟩⟩
    | tick => exact .inl ⟨rfl, by simp [keepsAllBut_iff, State.after, State.reg, State.readByte], fun h => absurd rfl h⟩
    | setKeys v | supplyRandom bs =>
      exact .inl ⟨rfl, by simp [keepsAllBut_iff, State.after, State.reg, State.readByte], fun _ => ⟨rfl, rfl⟩⟩
    | init => exact .inr ⟨rfl, .inr (.inl rfl)⟩
    | reset => exact .inr ⟨rfl, .inr (.inr (.inl rfl))⟩
    | load source =>
      rcases load_cases s source with hsame | ⟨⟨image, rfl⟩, hrun⟩
      · rw [State.after, hsame]; exact .inl ⟨rfl, survivesAwait_refl _ s⟩
      · exact .inr ⟨hrun, .inr (.inr (.inr ⟨image, rfl⟩))⟩

/-- Settles O49: entry by the step alone, exit and survival by act_of_awaiting. -/
theorem awaitingKeyIsEnteredByLdVxKAndLeftByKeyPressOrInit :
    Obligations.AwaitingKeyIsEnteredByLdVxKAndLeftByKeyPressOrInit := by
  unfold Obligations.AwaitingKeyIsEnteredByLdVxKAndLeftByKeyPressOrInit
  refine ⟨?enter, ?onlyEntry, ?leave, ?survive⟩
  case enter =>
    rintro s X hrun ⟨w, hf, hd⟩
    exact ⟨_, step_of_decode hrun hf hd, rfl⟩
  case onlyEntry =>
    intro a s t X h ht hne
    cases a with
    | step => exact ⟨rfl, instrAt_ldVxK_of_step_awaiting h ht hne⟩
    | event e =>
      obtain rfl := Host.Outcome.next.inj h
      rcases after_engine s e with hsame | hrun
      · exact absurd hsame.symm hne
      · cases hrun.symm.trans ht
  case leave =>
    intro a s t X h hs hne
    exact ((act_of_awaiting hs h).resolve_left fun hk => hne hk.1).2
  case survive =>
    intro a s t X h hs heq
    rcases act_of_awaiting hs h with ⟨-, hkeeps⟩ | ⟨hrun, -⟩
    · exact hkeeps
    · cases hrun.symm.trans (heq.trans hs)

end Sys2Proof.Machine
end

section
/-! The loader's three answers and the tick (70_reset_and_hazards.md R241; 60_exceptions.md R216, R222). -/

namespace Sys2Proof.Machine

variable {s : State} {image : List Byte}

/-! ### An image that fits (70_reset_and_hazards.md R241) -/

theorem load_of_length_le (s : State) (h : image.length ≤ 3584) : s.load (some image) =
    (none, { s.initialize with mem := s.initialize.mem.writeRange s.cfg.glyphs 512 image }) :=
  if_neg (Nat.not_lt.2 h)

/-- The image stands at 512 and upward: written over empty memory, it ends inside memory. -/
theorem load_readByte_inside (hlen : image.length ≤ 3584) (k : Nat) (hk : k < image.length) :
    (s.load (some image)).2.readByte (512 + k) = image[k] := by
  have hend : 512 + image.length ≤ 4096 := by omega
  rw [load_of_length_le s hlen]
  exact read_writeRange_inside 512 image k hk (nil_wf s.cfg.glyphs) hend

theorem load_readByte_outside (hlen : image.length ≤ 3584) {a : Nat} (ha : a < 512 ∨ 512 + image.length ≤ a) :
    (s.load (some image)).2.readByte a = s.initialize.readByte a := by
  rw [load_of_length_le s hlen]
  exact read_writeRange_outside s.initialize.mem image ha

theorem load_keepsAllBut (hlen : image.length ≤ 3584) :
    KeepsAllBut [.memory] s.initialize (s.load (some image)).2 := by
  rw [load_of_length_le s hlen]
  simp [keepsAllBut_iff, State.reg]

/-- Settles O48, one lemma for each answer and for each clause about the loaded machine. -/
theorem loadIsAllOrNothing : Obligations.LoadIsAllOrNothing := by
  unfold Obligations.LoadIsAllOrNothing
  refine fun s => ⟨rfl, fun _ hgt => load_of_length_gt s hgt, fun image hlen => ⟨?answer, ?inside, ?outside, ?frame⟩⟩
  case answer => rw [load_of_length_le s hlen]
  case inside => exact load_readByte_inside hlen
  case outside => exact fun _ ha => load_readByte_outside hlen ha
  case frame => exact load_keepsAllBut hlen

/-! ### The tick (60_exceptions.md R222) -/

/-- A tick touches the two timers alone. -/
theorem tick_keepsAllBut (s : State) : KeepsAllBut [.DT, .ST] s s.tick := by
  simp [keepsAllBut_iff, State.reg, State.readByte]

/-- Settles O46: on each timer, countDown is subtraction on the naturals, which stays at 0. -/
theorem tickCountsBothTimersDown : Obligations.TickCountsBothTimersDown := by
  unfold Obligations.TickCountsBothTimersDown
  intro s
  have hDT : s.tick.DT.toNat = s.DT.toNat - 1 := countDown_toNat s.DT
  have hST : s.tick.ST.toNat = s.ST.toNat - 1 := countDown_toNat s.ST
  exact ⟨fun _ => hDT, fun h0 => by rw [hDT, h0], fun _ => hST, fun h0 => by rw [hST, h0], tick_keepsAllBut s⟩

end Sys2Proof.Machine
end

section
/-! The successful end of a run: a jump to its own address (70_reset_and_hazards.md R250). -/

namespace Sys2Proof.Machine

variable {s : State} {i : Instr} {NNN : Addr}

theorem instrAt_of_fetchDecode (h : s.fetchDecode = .run i) : InstrAt s i := by
  rcases fetchDecode_cases s with ⟨-, e⟩ | ⟨w, -, -, e⟩ | ⟨w, j, hf, hd, e⟩
  · cases e.symm.trans h
  · cases e.symm.trans h
  · obtain rfl := Fetched.run.inj (e.symm.trans h)
    exact ⟨w, hf, hd⟩

theorem InstrAt.step_eq (hi : InstrAt s i) (hrun : s.engine = .running) : step s = exec i s := by
  obtain ⟨_, hf, hd⟩ := hi
  exact step_of_decode hrun hf hd

/-- A finished run is RUNNING at a JP, or at a SYS, whose address is pc. -/
theorem finished_cases (h : s.finished = true) : s.engine = .running ∧
    ∃ NNN : Addr, NNN.toNat = s.pc.toNat ∧ (InstrAt s (.jp NNN) ∨ InstrAt s (.sys NNN)) := by
  unfold State.finished at h
  split at h
  · next NNN hrun hd => exact ⟨hrun, NNN, beq_iff_eq.1 h, .inl (instrAt_of_fetchDecode hd)⟩
  · next NNN hrun hd => exact ⟨hrun, NNN, beq_iff_eq.1 h, .inr (instrAt_of_fetchDecode hd)⟩
  · cases h

theorem finish_jump_self (h : NNN.toNat = s.pc.toNat) : finish (.jump (absoluteTarget NNN)) s = .next s := by
  have htarget : absoluteTarget NNN = s.pc := BitVec.eq_of_toNat_eq ((absoluteTarget_toNat NNN).trans h)
  rw [htarget]
  rfl

/-- Settles O54, by the instruction at pc: each jumps to where pc already is, and no SYS is at pc with SYS_JUMP false. -/
theorem finishedRunStaysWhereItIs : Obligations.FinishedRunStaysWhereItIs := by
  unfold Obligations.FinishedRunStaysWhereItIs
  intro s h
  obtain ⟨hrun, NNN, hpc, hi⟩ := finished_cases h
  rcases hi with hjp | hsys
  · exact (hjp.step_eq hrun).trans (finish_jump_self hpc)
  · have hj : s.cfg.sysJump = true := by
      by_contra hf
      exact not_instrAt_sys (Bool.eq_false_of_not_eq_true hf) NNN hsys
    exact (hsys.step_eq hrun).trans ((exec_sys_of_sysJump NNN hj).trans (finish_jump_self hpc))

end Sys2Proof.Machine
end
